-- ==== Sys2Proof/Word.lean ====
section
/-!
DEFINITION. The bit vectors of the LNS32 arithmetic block.

The widths are fixed by 00_scope.md R6 (`WORD_BITS = 32`, `FIELD_BITS = 31`) and 10_state.md R21
(`op` is three wires). Bit 31 is the most significant bit of a word (00_scope.md R7), which is how
`BitVec` numbers its bits.
-/

namespace Sys2Proof

/-- An LNS32 word: one 32-bit value on a data port (30_encoding.md R50, 20_memory.md R41, R44). -/
abbrev Word := BitVec 32

/-- The 31-bit two's-complement exponent field of a word (30_encoding.md R50). -/
abbrev Field := BitVec 31

/-- The three wires of the operation select `op[2:0]` (30_encoding.md R57). -/
abbrev OpSelect := BitVec 3

/-- The 67-bit input vector with op, a and b, most significant bit first (30_encoding.md R63). -/
abbrev InputVector := BitVec 67

end Sys2Proof
end

