-- ==== Sys2Proof/Config.lean ====
section
/-!
DEFINITION. What an implementation of the block fixes (00_scope.md R6), and the free values.

The design parameters are plain data, so that a state can say which block it is a state of. The free
values are opaque: nothing can evaluate them, so a theorem that mentions one holds for every value.
-/

namespace Sys2Proof.Config

/-- `FRAC_BITS`, the number of fractional bits of the exponent field (00_scope.md R6, 30_encoding.md
R52). -/
def fracBits : Nat := 23

/-- The scale `N = 2^FRAC_BITS` (00_scope.md R10). -/
abbrev scale : Nat := 2 ^ fracBits

/-- How a staged adder takes the integer part of a scaled logarithm. The spec leaves open whether it
is the floor or the truncation for negative exponents (42_additive.md R106). -/
inductive IntegerPart where
  | floor
  | truncate
deriving DecidableEq, Repr

/-- The conventions of a staged adder that 42_additive.md R106 leaves to the implementation.
`Staged.wf` (WellFormed.lean) says which of them agree with what R106 does fix. -/
structure Staged where
  /-- `MANT_WIDTH`, the width `W` of the two's-complement mantissa (00_scope.md R6). -/
  width : Nat
  /-- Floor or truncation in stage 1. -/
  integerPart : IntegerPart
  /-- The fixed integer offset `c` of stage 1. -/
  offset : Int
deriving DecidableEq, Repr

/-- The parameter `ADD_CORE` (00_scope.md R6, 42_additive.md R101). -/
inductive AddCore where
  /-- The default: the exact sum, rounded to nearest (42_additive.md R111). -/
  | reference
  /-- Any other function that meets 42_additive.md R102 to R105: a free value. -/
  | free
  /-- A hardware adder built from the five stages at a finite width (42_additive.md R106 to R110). -/
  | staged (conventions : Staged)
deriving DecidableEq, Repr

/-- The design parameters that change what the block does (00_scope.md R6). `FRAC_BITS` and the widths
are fixed by the spec. -/
structure Design where
  /-- `OUT_REG`: whether the outputs go through one clocked register stage. -/
  outReg : Bool
  /-- `ADD_CORE`. -/
  addCore : AddCore
deriving DecidableEq, Repr

/-- The default block: combinational, with the reference adder (00_scope.md R6). -/
def Design.default : Design := ⟨false, .reference⟩

/-! ## Free values -/

/-- DESIGN CHOICE, safe (log 7). The exponent, before `wrap31`, that an `ADD_CORE` the spec does not fix
gives to its dominant and its minor operand (42_additive.md R101, R104; 93_implementation_defined.md
I1). -/
opaque freeExponent : Word → Word → Int

/-- DESIGN CHOICE, safe (log 8). How the antilog conversion of stage 1 rounds to `W` bits, which
42_additive.md R106 leaves to the implementation: whether the mantissa magnitude of an operand with this
sign and this scaled fraction is rounded up or down. -/
opaque antilogRoundsUp : Staged → Bool → Int → Bool

/-- DESIGN CHOICE, safe (log 8). The exponent a staged adder returns when the mantissas' loss of
precision makes the aligned sum 0 (42_additive.md R109, 93_implementation_defined.md I2). -/
opaque cancelledExponent : Staged → Word → Word → Int

/-- DESIGN CHOICE, safe (log 3). What `y` reads before the outputs have settled (70_reset_and_hazards.md
R163, 93_implementation_defined.md I12). -/
opaque unsettledY : Nat → Word

/-- DESIGN CHOICE, safe (log 3). What `eq` reads before the outputs have settled. -/
opaque unsettledEq : Nat → Bool

/-- DESIGN CHOICE, safe (log 4). What `y_q` holds after an edge at which the inputs broke the set-up or
hold window (70_reset_and_hazards.md R164, 93_implementation_defined.md I13). -/
opaque violatedY : Nat → Word

/-- DESIGN CHOICE, safe (log 4). What `eq_q` holds after such an edge. -/
opaque violatedEq : Nat → Bool

/-- DESIGN CHOICE, safe (log 9). The bits in `y_q` after power-up, which no host may read (10_state.md
R28). -/
opaque powerUpY : Nat → Word

/-- DESIGN CHOICE, safe (log 9). The bit in `eq_q` after power-up, which no host may read (10_state.md
R28). -/
opaque powerUpEq : Nat → Bool

end Sys2Proof.Config
end

