-- ==== Sys2Proof/Syntax.lean ====
section
/-!
DEFINITION. The operations of the block: one constructor for each row of spec/opcode_table.json.

An instruction has no operand field: the operands are the words on the ports `a` and `b` and are no
part of the encoding (30_encoding.md R57). The reserved select `op = 111` is no row of the table and so
no instruction; Machine/Reserved.lean gives its effect.
-/

namespace Sys2Proof

/-- The seven operations (00_scope.md R3, 30_encoding.md R58). -/
inductive Instr where
  /-- Multiplication (41_multiplicative.md R80). -/
  | mul
  /-- Division (41_multiplicative.md R83). -/
  | div
  /-- Addition (42_additive.md R100). -/
  | add
  /-- Subtraction (42_additive.md R116). -/
  | sub
  /-- Square root, of `a` only (41_multiplicative.md R85). -/
  | sqrt
  /-- Negation, of `a` only (42_additive.md R117). -/
  | neg
  /-- Bitwise equality with a pass-through of `a` (40_representation.md R74). -/
  | eq
deriving DecidableEq, Repr

end Sys2Proof
end

