-- ==== Sys2Proof/WellFormed.lean ====
section
/-!
DEFINITION. The checks on an instruction and on the design parameters. An operand word needs none: every
one of the 2^32 is legal (30_encoding.md R55, R66).
-/

namespace Sys2Proof

/-- An instruction is well formed. None of the seven has an operand field, an immediate or a mode bit
that could be out of range (30_encoding.md R57, R61), so each is. -/
def Instr.wf : Instr → Bool
  | .mul => true
  | .div => true
  | .add => true
  | .sub => true
  | .sqrt => true
  | .neg => true
  | .eq => true

/-- A staged adder's mantissa has a sign bit and at least one fraction bit, so that a magnitude in
`[1/2, 1)` exists, and its offset is 1: the mantissa of a fraction `f` in `[0, 1)` is `2^(f - c)`, which
lies in `[1/2, 1)` for no other integer `c` (42_additive.md R106). DEDUCED (log 8). -/
def Config.Staged.wf (d : Config.Staged) : Bool := decide (2 ≤ d.width) && decide (d.offset = 1)

/-- The design parameters describe a block. -/
def Config.Design.wf (d : Config.Design) : Bool :=
  match d.addCore with
  | .reference => true
  | .free => true
  | .staged c => c.wf

end Sys2Proof
end

