-- ==== Sys2Proof/Decode.lean ====
section
/-!
DEFINITION. The decoder and the encoder of `op[2:0]` (30_encoding.md R57, R58, R60) and of the 67-bit
input vector (30_encoding.md R63).
-/

namespace Sys2Proof

/-- Why a select is no instruction. -/
inductive DecodeError where
  /-- `op = 111` is reserved (30_encoding.md R60). -/
  | reservedSelect
deriving DecidableEq, Repr

/-- The operation that `op` selects (30_encoding.md R58); `111` is rejected by name. -/
def decode (op : OpSelect) : Except DecodeError Instr :=
  match op.toNat with
  | 0 => .ok .mul
  | 1 => .ok .div
  | 2 => .ok .add
  | 3 => .ok .sub
  | 4 => .ok .sqrt
  | 5 => .ok .neg
  | 6 => .ok .eq
  | _ => .error .reservedSelect

/-- The select of an operation (30_encoding.md R58). -/
def encode : Instr → OpSelect
  | .mul => 0b000
  | .div => 0b001
  | .add => 0b010
  | .sub => 0b011
  | .sqrt => 0b100
  | .neg => 0b101
  | .eq => 0b110

/-- The select that no operation has (30_encoding.md R60). -/
def reservedSelect : OpSelect := 0b111

/-- The select in a number: its three low bits, which are all the bits `op` has wires for
(spec/opcode_table.json gives every row the mask 0x7). DEDUCED (log 10). -/
def selectOfNat (w : Nat) : OpSelect := BitVec.ofNat 3 w

/-- What the decoder reads from an instruction whose `nbits` bits are `w`: bit 0 of `w` is `op[0]`
(30_encoding.md R57, spec/opcode_table.json). -/
def decodeTableWord (nbits w : Nat) : Option Instr :=
  (decode (selectOfNat (w % 2 ^ nbits))).toOption

/-- The input vector of an operation and its two operand words (30_encoding.md R63). -/
def encodeVector (i : Instr) (a b : Word) : InputVector := encode i ++ a ++ b

/-- The select of an input vector: bits 66 to 64. -/
def vectorSelect (v : InputVector) : OpSelect := v.extractLsb' 64 3

/-- The operand `a` of an input vector: bits 63 to 32. -/
def vectorA (v : InputVector) : Word := v.extractLsb' 32 32

/-- The operand `b` of an input vector: bits 31 to 0. -/
def vectorB (v : InputVector) : Word := v.extractLsb' 0 32

/-- One evaluation as the host writes it (30_encoding.md R63). -/
structure Evaluation where
  instr : Instr
  a : Word
  b : Word
deriving DecidableEq, Repr

/-- The evaluation an input vector stands for. Every operand word is legal (30_encoding.md R55, R66), so
only the reserved select is rejected. -/
def decodeVector (v : InputVector) : Except DecodeError Evaluation :=
  match decode (vectorSelect v) with
  | .ok i => .ok ⟨i, vectorA v, vectorB v⟩
  | .error e => .error e

end Sys2Proof
end

