-- ==== Sys2Proof/Machine/Interval.lean ====
section
/-!
DEFINITION. Interval arithmetic on `2^(x/N)` at a chosen precision, and the rounding in the linear
domain built on it (42_additive.md R110, R114).

A positive real `v` is enclosed at precision `p` by two naturals with `lo ≤ v * 2^p ≤ hi`. Everything
here is bounds: where they do not decide, the answer is `none` and the precision is doubled.
-/

namespace Sys2Proof.Machine

/-- The bounds of a positive real, scaled by `2^p` for the precision `p` in use. -/
structure Interval where
  lo : Nat
  hi : Nat
deriving DecidableEq, Repr

/-- Newton's iteration for the integer square root, from an upper bound `x`. -/
def isqrtLoop : Nat → Nat → Nat → Nat
  | 0, _, x => x
  | k + 1, n, x => if (x + n / x) / 2 < x then isqrtLoop k n ((x + n / x) / 2) else x

/-- The greatest natural whose square is at most `n`. -/
def isqrt (n : Nat) : Nat := isqrtLoop (n.log2 + 2) n (2 ^ (n.log2 / 2 + 1))

/-- The bounds of `2^(j / 2^n)`, for `j < 2^n`: one square root for each bit of `j`. -/
def exp2Frac (p : Nat) : Nat → Nat → Interval
  | 0, _ => ⟨2 ^ p, 2 ^ p⟩
  | n + 1, j =>
    let r := exp2Frac p n (j % 2 ^ n)
    ⟨isqrt (r.lo * 2 ^ (j / 2 ^ n) * 2 ^ p), isqrt (r.hi * 2 ^ (j / 2 ^ n) * 2 ^ p) + 1⟩

/-- `floor(2^(t / 2^n))`: one integer square root for each halving of the exponent. -/
def floorExp2 : Nat → Nat → Nat
  | 0, t => 2 ^ t
  | n + 1, t => isqrt (floorExp2 n t)

/-- `floor(2^(t/N))`. Where the bounds with 64 fractional bits have one floor, it is that one, which spares
`floorExp2` its numbers of `t` bits. -/
def antilogFloor (t : Nat) : Nat :=
  let q := t / Config.scale
  let x := exp2Frac (q + 64) Config.fracBits (t % Config.scale)
  if x.lo / 2 ^ 64 = x.hi / 2 ^ 64 then x.lo / 2 ^ 64 else floorExp2 Config.fracBits t

/-- The bounds of `2^(-d/N)`: `2^(j/N) / 2^q` with `q` the least natural such that `q * N ≥ d`, and
`j = q * N - d`. -/
def exp2Neg (p d : Nat) : Interval :=
  let q := (d + (Config.scale - 1)) / Config.scale
  let r := exp2Frac p Config.fracBits (q * Config.scale - d)
  ⟨r.lo / 2 ^ q, r.hi / 2 ^ q + 1⟩

/-- The bounds of `1 + 2^(-d/N)` or `1 - 2^(-d/N)`: the exact sum of two operands a distance `d` apart,
divided by the dominant magnitude (42_additive.md R111). -/
def relativeSum (same : Bool) (d p : Nat) : Interval :=
  let w := exp2Neg p d
  if same then ⟨2 ^ p + w.lo, 2 ^ p + w.hi⟩ else ⟨2 ^ p - w.hi, 2 ^ p - w.lo⟩

/-- The bounds of `2v / (1 + 2^(1/N))`, for a `v` within `x`. -/
def midpointRatio (p : Nat) (x : Interval) : Interval :=
  let g := exp2Frac p Config.fracBits 1
  ⟨2 * x.lo * 2 ^ p / (2 ^ p + g.hi), 2 * x.hi * 2 ^ p / (2 ^ p + g.lo) + 1⟩

/-- Bounds with a common binary exponent: the real lies in `[lo * 2^e, hi * 2^e]`. -/
structure Scaled where
  lo : Nat
  hi : Nat
  e : Int
deriving DecidableEq, Repr

/-- The square, with the bounds cut back to about `p` bits. -/
def squareScaled (p : Nat) (v : Scaled) : Scaled :=
  let k := (v.hi * v.hi).log2 + 1 - p
  ⟨v.lo * v.lo / 2 ^ k, v.hi * v.hi / 2 ^ k + 1, 2 * v.e + (k : Int)⟩

/-- The power `2^n`, by `n` squarings. -/
def powScaled (p : Nat) : Nat → Scaled → Scaled
  | 0, v => v
  | n + 1, v => powScaled p n (squareScaled p v)

/-- `floor(log2 v)` if both bounds have the same one. -/
def floorLog2 (v : Scaled) : Option Int :=
  if v.lo ≠ 0 ∧ v.lo.log2 = v.hi.log2 then some (v.e + (v.lo.log2 : Int)) else none

/-- The integer `r` for which `2^(r/N)` is the representable magnitude nearest to a `v` within `x`, in
the linear domain, if this precision decides it (42_additive.md R110, R111).

`v` is nearer to `2^(r/N)` than to its two neighbours exactly when
`2^((r-1)/N) < 2v / (1 + 2^(1/N)) < 2^(r/N)`, so `r` is one more than the floor of `N * log2` of that
ratio, which is `log2` of the ratio's `N`-th power: `FRAC_BITS` squarings. -/
def nearestAt (p : Nat) (x : Interval) : Option Int :=
  let z := midpointRatio p x
  (floorLog2 (powScaled p Config.fracBits ⟨z.lo, z.hi, -(p : Int)⟩)).map (· + 1)

/-- `nearestAt` at doubling precisions, until one decides (42_additive.md R114). -/
def nearestRefined (x : Nat → Interval) : Nat → Nat → Option Int
  | 0, _ => none
  | k + 1, p =>
    match nearestAt p (x p) with
    | some r => some r
    | none => nearestRefined x k (2 * p)

/-- The precision of the first attempt, in bits. -/
def firstPrecision : Nat := 128

/-- The exponent of the representable magnitude nearest to the positive real that `x` encloses at every
precision, if one of the first `k` precisions decides it (42_additive.md R110, R114). -/
def nearestWithin (k : Nat) (x : Nat → Interval) : Option Int := nearestRefined x k firstPrecision

/-- How many precisions are tried for a sum of two exact magnitudes: up to `128 * 2^39` bits. DEDUCED
(log 11). -/
def refinements : Nat := 40

/-- `nearestWithin` for a sum of two exact magnitudes (42_additive.md R114). -/
def nearestExponent (x : Nat → Interval) : Option Int := nearestWithin refinements x

end Sys2Proof.Machine
end

