-- ==== Sys2Proof/Machine/Operands.lean ====
section
/-!
DEFINITION. How an operand word is read: sign, field, signed value, sentinels, and the dominant operand
of a pair (00_scope.md R7, R8; 30_encoding.md R50, R53, R54, R56, R65).
-/

namespace Sys2Proof.Machine

/-- The dedicated code of the real value 0 (30_encoding.md R53). -/
def ZERO : Word := 0x40000000

/-- "Not a Real", the absorbing error sentinel (30_encoding.md R53). -/
def NAR : Word := 0xC0000000

/-- The real value 1, an ordinary word (30_encoding.md R54, 90_conflicts.md C6). -/
def ONE : Word := 0x00000000

/-- Bit 31 alone: the outer sign bit (42_additive.md R100, R117). -/
def signBit : Word := 0x80000000

/-- The boundary magnitude `0x40000000`, the field of both sentinels (30_encoding.md R53). -/
def boundaryField : Field := 0x40000000

/-- `sign(w) = w[31]` (30_encoding.md R50). -/
def sign (w : Word) : Bool := w.getLsbD 31

/-- `field(w) = w[30:0]` (30_encoding.md R50). -/
def field (w : Word) : Field := w.setWidth 31

/-- The word with sign `s` in bit 31 and field `e` in bits 30 to 0 (00_scope.md R7). -/
def mkWord (s : Bool) (e : Field) : Word := BitVec.cons s e

/-- `s31(e)`: the signed value of a field, in `[-2^30, 2^30 - 1]` (00_scope.md R8). -/
def s31 (e : Field) : Int := e.toInt

/-- `wrap31(n)`: the field congruent to `n` modulo `2^31` (00_scope.md R8). -/
def wrap31 (n : Int) : Field := BitVec.ofInt 31 n

/-- The signed field of a word, `N` times `log2` of its magnitude (30_encoding.md R51). -/
def logField (w : Word) : Int := s31 (field w)

/-- `isZero(w)` (30_encoding.md R53). -/
def isZero (w : Word) : Bool := w == ZERO

/-- `isNar(w)` (30_encoding.md R53). -/
def isNar (w : Word) : Bool := w == NAR

/-- `isBoundary(w)`: the word is a sentinel (30_encoding.md R53). -/
def isBoundary (w : Word) : Bool := field w == boundaryField

/-- Whether two words have the same sign bit. -/
def sameSign (a b : Word) : Bool := sign a == sign b

/-- The word with the outer sign bit flipped, sentinel or not (42_additive.md R100, R117). -/
def flipSign (w : Word) : Word := w ^^^ signBit

/-- The dominant operand: the one with the larger signed field, `a` when they are equal
(30_encoding.md R56, 42_additive.md R103). -/
def dominant (a b : Word) : Word := if logField b ≤ logField a then a else b

/-- The other operand. -/
def minor (a b : Word) : Word := if logField b ≤ logField a then b else a

/-- Whether a pair reaches the last branch of ADD: both operands non-sentinel and not an exact
cancellation (42_additive.md R101). -/
def inAddDomain (a b : Word) : Bool := !isBoundary a && !isBoundary b && a != flipSign b

end Sys2Proof.Machine
end

