-- ==== Sys2Proof/Machine/ReferenceAdder.lean ====
section
/-!
DEFINITION. The reference `ADD_CORE`: the exact sum rounded to the nearest representable magnitude, ties
to an even field (42_additive.md R111), evaluated as 42_additive.md R114 says. Machine/RealValue.lean
holds the rule as it is written, over the reals.
-/

namespace Sys2Proof.Machine

/-- An exact tie goes to whichever of the two neighbouring fields `n` and `n + 1` is even
(42_additive.md R112). -/
def evenOf (n : Int) : Int := if n % 2 = 0 then n else n + 1

/-- The exponent `p + r` of the rounded sum, by interval arithmetic (42_additive.md R114, step 2), for a
dominant signed field `p` and a distance `d`. Where no precision decides it is a free value, which log
11 says does not happen. -/
def searchedExponent (x m : Word) : Int :=
  match nearestExponent (relativeSum (sameSign x m) (logField x - logField m).toNat) with
  | some r => logField x + r
  | none => Config.freeExponent x m

/-- The exponent, before `wrap31`, of the reference sum of a dominant operand `x` and a minor operand
`m` (42_additive.md R111): the exact cases of R113, the tie of R112, and every other case by R114. -/
def referenceExponent (x m : Word) : Int :=
  let d := logField x - logField m
  if sameSign x m then
    if d = 0 then logField x + Config.scale
    else if d = 1 then evenOf (logField m + Config.scale)
    else searchedExponent x m
  else if d = Config.scale then logField m
  else searchedExponent x m

/-- The reference `ADD_CORE(a, b)`: the sign of the dominant operand, which is the sign of the exact sum
(42_additive.md R103), and the exponent reduced by `wrap31` (42_additive.md R104, R111). -/
def referenceCore (a b : Word) : Word :=
  mkWord (sign (dominant a b)) (wrap31 (referenceExponent (dominant a b) (minor a b)))

end Sys2Proof.Machine
end

