-- ==== Sys2Proof/Machine/StagedAdder.lean ====
section
/-!
DEFINITION. The staged adder datapath at a finite mantissa width (42_additive.md R106 to R110).

A mantissa of width `W` is a signed integer, the mantissa's value times `2^(W-1)`: values in `(-1, 1)`
are integers strictly between `-2^(W-1)` and `2^(W-1)`, and a normalized magnitude, in `[1/2, 1)`, is
at least `2^(W-2)`.
-/

namespace Sys2Proof.Machine

/-- An exponent and a signed mantissa (42_additive.md R106).

DESIGN CHOICE (log 19): between the stages the exponent is an unbounded integer, and only the field of
the result is wrapped. How a staged datapath carries an exponent outside the field's range is not given
(91_not_in_source.md N3, N15). -/
structure ExpMant where
  exponent : Int
  mantissa : Int
deriving DecidableEq, Repr

/-- The integer that stands for the mantissa 1. -/
def mantissaOne (w : Nat) : Nat := 2 ^ (w - 1)

/-- The integer that stands for the mantissa 1/2. -/
def mantissaHalf (w : Nat) : Nat := 2 ^ (w - 2)

/-- The integer part of a scaled logarithm: floor or truncation, as the implementation has it
(42_additive.md R106). -/
def integerPartOf (c : Config.IntegerPart) (x : Int) : Int :=
  match c with
  | .floor => x.fdiv Config.scale
  | .truncate => x.tdiv Config.scale

/-- `N * log2` of the exact mantissa magnitude, in units of the last place, that a fraction reconstructs
its operand with: `|M| * 2^(W-1) = 2^(fraction/N - c + W - 1)` (42_additive.md R106). -/
def mantissaLog (c : Config.Staged) (fraction : Int) : Int :=
  fraction + ((c.width : Int) - 1 - c.offset) * Config.scale

/-- The antilog of stage 1: the exact magnitude where it is representable, else one of the two `W`-bit
magnitudes on either side of it, but never 1 (42_additive.md R106). Which of the two is the
implementation's rounding: DESIGN CHOICE, a free value (log 8). -/
def mantissaMagnitude (c : Config.Staged) (s : Bool) (fraction : Int) : Nat :=
  let t := mantissaLog c fraction
  let n := if 0 ≤ t then antilogFloor t.toNat else 0
  if 0 ≤ t ∧ t % Config.scale = 0 then n
  else if Config.antilogRoundsUp c s fraction = true ∧ n + 1 < mantissaOne c.width then n + 1
  else n

/-- Stage 1, decompose (42_additive.md R106). -/
def decompose (c : Config.Staged) (w : Word) : ExpMant :=
  let e := integerPartOf c.integerPart (logField w)
  let m : Int := mantissaMagnitude c (sign w) (logField w - e * Config.scale)
  ⟨e, if sign w then -m else m⟩

/-- A right shift of a mantissa: arithmetic below the width, exactly 0 from the width on
(42_additive.md R107). -/
def shiftMantissa (w : Nat) (m : Int) (n : Nat) : Int := if n ≥ w then 0 else m >>> n

/-- Two mantissas at one exponent. -/
structure Aligned where
  exponent : Int
  left : Int
  right : Int
deriving DecidableEq, Repr

/-- Stage 2, align: the operand with the larger exponent keeps its mantissa (42_additive.md R107). -/
def align (w : Nat) (a b : ExpMant) : Aligned :=
  let delta := a.exponent - b.exponent
  if delta ≥ 0 then ⟨a.exponent, a.mantissa, shiftMantissa w b.mantissa delta.toNat⟩
  else ⟨b.exponent, shiftMantissa w a.mantissa (-delta).toNat, b.mantissa⟩

/-- Stage 3, sum: exact, with one more integer bit than the mantissas (42_additive.md R108). -/
def sumAligned (v : Aligned) : ExpMant := ⟨v.exponent, v.left + v.right⟩

/-- Stage 4, renormalize (42_additive.md R109). -/
def renormalize (w : Nat) (oppositeSigns : Bool) (v : ExpMant) : ExpMant :=
  if mantissaOne w ≤ v.mantissa.natAbs then ⟨v.exponent + 1, v.mantissa >>> (1 : Nat)⟩
  else if oppositeSigns && v.mantissa.natAbs < mantissaHalf w && v.mantissa != 0 then
    let k := w - 2 - v.mantissa.natAbs.log2
    ⟨v.exponent - (k : Int), v.mantissa * 2 ^ k⟩
  else v

/-- How many precisions stage 5 tries: enough for every mantissa of the width. DEDUCED (log 11). -/
def reencodeRefinements (c : Config.Staged) : Nat := refinements + c.width

/-- Stage 5, re-encode: the exponent, before `wrap31`, of the representable magnitude nearest, in the
linear domain, to `|Sigma| * 2^(E + c)` (42_additive.md R110).

DESIGN CHOICE (log 20): the conversion is exact. The precision of a staged adder's log conversion is left
to the implementation (93_implementation_defined.md I2, 91_not_in_source.md N3). -/
def reencode (c : Config.Staged) (v : ExpMant) : Option Int :=
  (nearestWithin (reencodeRefinements c)
      (fun p => ⟨v.mantissa.natAbs * 2 ^ p, v.mantissa.natAbs * 2 ^ p⟩)).map
    (· + (v.exponent + c.offset - (c.width - 1 : Nat)) * Config.scale)

/-- The aligned sum of two operands (42_additive.md R106 to R108). -/
def stagedSum (c : Config.Staged) (a b : Word) : ExpMant :=
  sumAligned (align c.width (decompose c a) (decompose c b))

/-- The exponent, before `wrap31`, that the five stages give (42_additive.md R106 to R110). A sum that
vanishes by loss of precision gives a free value (42_additive.md R109; log 8). That stage 5 always decides
is the statement ReencodeAlwaysDecides; were it not to, the value would be free (log 11). -/
def stagedExponent (c : Config.Staged) (a b : Word) : Int :=
  let v := stagedSum c a b
  if v.mantissa = 0 then Config.cancelledExponent c (dominant a b) (minor a b)
  else
    match reencode c (renormalize c.width (!sameSign a b) v) with
    | some r => r
    | none => Config.freeExponent (dominant a b) (minor a b)

end Sys2Proof.Machine
end

