-- ==== Sys2Proof/Machine/AddCore.lean ====
section
/-!
DEFINITION. The parameter `ADD_CORE` of a design, and what every value of it must satisfy
(42_additive.md R101 to R105).
-/

namespace Sys2Proof.Machine

/-- The pair whose sum every `ADD_CORE` must wrap onto the ZERO pattern (42_additive.md R105). -/
def requiredA : Word := 0x3FFFFFFF

/-- The other operand of that pair (42_additive.md R105). -/
def requiredB : Word := 0x343BFAE6

/-- Whether two operands are the pair of 42_additive.md R105, in either order (42_additive.md R102). -/
def isRequiredPair (a b : Word) : Bool :=
  a == requiredA && b == requiredB || a == requiredB && b == requiredA

/-- The `ADD_CORE` that takes its exponents from `r`, held to what every `ADD_CORE` must satisfy: the
sign of the dominant operand (42_additive.md R103), the exponent wrapped (42_additive.md R104), and the
one required vector (42_additive.md R105). DESIGN CHOICE (log 7, log 8). -/
def constrainedCore (r : Word → Word → Int) (a b : Word) : Word :=
  if isRequiredPair a b then ZERO else mkWord (sign (dominant a b)) (wrap31 (r a b))

/-- An `ADD_CORE` that the spec does not fix: a free exponent for each pair, the same in both orders
(42_additive.md R101, R102; 93_implementation_defined.md I1). -/
def freeCore (a b : Word) : Word :=
  constrainedCore (fun x m => Config.freeExponent (dominant x m) (minor x m)) a b

/-- The `ADD_CORE` of a staged adder (42_additive.md R106 to R110). -/
def stagedCore (c : Config.Staged) (a b : Word) : Word := constrainedCore (stagedExponent c) a b

/-- The `ADD_CORE` of a design (42_additive.md R101). -/
def addCore (c : Config.AddCore) (a b : Word) : Word :=
  match c with
  | .reference => referenceCore a b
  | .free => freeCore a b
  | .staged d => stagedCore d a b

/-- What the spec requires of every `ADD_CORE` on its domain: 42_additive.md R102, R103 and R105. Its
R104 says that the field is an integer reduced by `wrap31`, which every field is. -/
structure Conforms (core : Word → Word → Word) : Prop where
  /-- Commutative (42_additive.md R102). -/
  comm : ∀ a b, inAddDomain a b = true → core a b = core b a
  /-- The sign of the dominant operand (42_additive.md R103). -/
  sign_dominant : ∀ a b, inAddDomain a b = true → sign (core a b) = sign (dominant a b)
  /-- The source's one vector (42_additive.md R105). -/
  vector : core requiredA requiredB = ZERO

end Sys2Proof.Machine
end

