-- ==== Sys2Proof/Machine/Flags.lean ====
section
/-!
DEFINITION. The one flag-like output, `eq` (10_state.md R24, 40_representation.md R74).
-/

namespace Sys2Proof.Machine

/-- `eq` under EQ: all 32 bits compared, no sentinel special case (40_representation.md R74). -/
def eqFlag (a b : Word) : Bool := a == b

/-- `eq` under every other select, the reserved one included: 0 (40_representation.md R74, 30_encoding.md
R60). Overflow, inexactness and division by zero are not flagged (10_state.md R24). -/
def noEqFlag : Bool := false

end Sys2Proof.Machine
end

