-- ==== Sys2Proof/Machine/State.lean ====
section
/-!
DEFINITION. The state of the block and its environment's inputs, and the state after reset.

With `OUT_REG = 0` the block holds no state (10_state.md R20): the output wires are held here as they
last settled. With `OUT_REG = 1` it holds `y_q` and `eq_q` (10_state.md R26). There is no memory, no
program counter, no general register and no control register (10_state.md R22 to R25, 20_memory.md R40).
-/

namespace Sys2Proof.Machine

/-- What the clock wire does during one step (10_state.md R26). DESIGN CHOICE (log 2). -/
inductive Clk where
  /-- The step is a rising edge of `clk`. -/
  | rises
  /-- The step holds no rising edge: the level stays, or falls. -/
  | quiet
deriving DecidableEq, Repr

/-- The two outputs of one evaluation (10_state.md R20, R21). -/
structure Output where
  /-- The result word `y`. -/
  y : Word
  /-- The equality bit `eq`. -/
  eq : Bool
deriving DecidableEq, Repr

/-- The machine state. -/
structure State where
  /-- The design parameters of this block; no step changes them (00_scope.md R6, 10_state.md R25). -/
  design : Config.Design
  /-- Input port `op[2:0]` (10_state.md R21). -/
  op : OpSelect
  /-- Input port `a` (10_state.md R21). -/
  a : Word
  /-- Input port `b` (10_state.md R21). -/
  b : Word
  /-- Input port `rst`; present only when `OUT_REG = 1` (10_state.md R21, R27). -/
  rst : Bool
  /-- Input port `clk` during this step; present only when `OUT_REG = 1` (10_state.md R21, R26). -/
  clk : Clk
  /-- Whether the inputs meet the register's set-up and hold window at this step's edge
  (70_reset_and_hazards.md R164, 93_implementation_defined.md I13). -/
  windowMet : Bool
  /-- The wires `y` as they last settled, when `OUT_REG = 0` (10_state.md R20, R21). -/
  y : Word
  /-- The wire `eq` as it last settled, when `OUT_REG = 0` (10_state.md R20, R21). -/
  eq : Bool
  /-- Whether the inputs have been held for `T_PROP` since they last changed (70_reset_and_hazards.md
  R163). -/
  settled : Bool
  /-- The register `y_q`, when `OUT_REG = 1` (10_state.md R26). -/
  yQ : Word
  /-- The register `eq_q`, when `OUT_REG = 1` (10_state.md R26). -/
  eqQ : Bool
  /-- Whether `y_q` and `eq_q` hold a defined value yet (10_state.md R28). -/
  qDefined : Bool
  /-- The model's own: which free value is taken next (log 5). -/
  freeIndex : Nat
deriving DecidableEq, Repr

/-- Why the machine stops with a fault. -/
inductive Fault where
  /-- Raised by `Sys2Proof.Machine.sample`, the HOST's read of the outputs, with `OUT_REG = 1`, before
  the first reset or capture edge: the registers hold no defined value and a read of them is a fault
  (10_state.md R28, 93_implementation_defined.md I5). No step raises it. Safe: the model stops where a
  chip would return some word. -/
  | outputHasNoValue
deriving DecidableEq, Repr

/-- Why the model gives an instruction no meaning. -/
inductive Refusal where
  /-- Raised only by an arm of `exec` whose instruction has no meaning yet; no arm does so now. Safe:
  the model stops where the hardware goes on. -/
  | notModelled (mnemonic : String)
deriving DecidableEq, Repr

/-- The state after reset: the default block (00_scope.md R6) with `y_q = ZERO` and `eq_q = 0`
(10_state.md R27, 70_reset_and_hazards.md R161). The input ports, which no rule gives a value, are 0
with the clock running and the window met, and the settled outputs are those of that input: MUL of ONE
by ONE. DESIGN CHOICE (log 1). -/
def State.reset : State where
  design := Config.Design.default
  op := 0
  a := 0
  b := 0
  rst := false
  clk := .rises
  windowMet := true
  y := 0
  eq := false
  settled := true
  yQ := ZERO
  eqQ := false
  qDefined := true
  freeIndex := 0

end Sys2Proof.Machine
end

