-- ==== Sys2Proof/Machine/Ops.lean ====
section
/-!
DEFINITION. The shared operations on State: reading the operand ports, delivering a result, what the
clock edge does, and the host's side of the ports.

The block takes no exception and has no return from one (60_exceptions.md R140, R146, R147), so there is
no operation for either: an error is the value NAR in the same evaluation.
-/

namespace Sys2Proof.Machine

/-- The first operand: the word on port `a` (10_state.md R21, R22). -/
def operandA (s : State) : Word := s.a

/-- The second operand: the word on port `b` (10_state.md R21, R22). -/
def operandB (s : State) : Word := s.b

/-! ## Delivering a result -/

/-- `OUT_REG = 0`: the output wires settle at `o` (10_state.md R20, 70_reset_and_hazards.md R163). -/
def settleOutputs (o : Output) (s : State) : State :=
  { s with y := o.y, eq := o.eq, settled := true }

/-- `OUT_REG = 1`, a rising edge with `rst == 0`: the registers capture `o` (10_state.md R26). -/
def captureOutputs (o : Output) (s : State) : State :=
  { s with yQ := o.y, eqQ := o.eq, qDefined := true }

/-- The result of an evaluation reaches the outputs, through the register stage if the block has one
(10_state.md R20, R26). -/
def deliver (o : Output) (s : State) : State :=
  match s.design.outReg with
  | false => settleOutputs o s
  | true => captureOutputs o s

/-! ## The clock edge -/

/-- What one step does. -/
inductive EdgeAction where
  /-- The operation that `op` selects is evaluated and its result delivered. -/
  | evaluate
  /-- No rising edge: the registers keep their values. -/
  | hold
  /-- A rising edge with `rst == 1`: the registers load their reset values. -/
  | loadReset
  /-- A rising edge at which the inputs broke the set-up or hold window. -/
  | captureUnknown
deriving DecidableEq, Repr

/-- The rule of the output register (10_state.md R26, R27; 70_reset_and_hazards.md R161, R164). With
`OUT_REG = 0` there is no clock and no reset, and every step is an evaluation (70_reset_and_hazards.md
R160). -/
def edgeAction (s : State) : EdgeAction :=
  match s.design.outReg, s.clk with
  | false, _ => .evaluate
  | true, .quiet => .hold
  | true, .rises =>
    if s.windowMet then (if s.rst then .loadReset else .evaluate) else .captureUnknown

/-- The registers load their reset values (10_state.md R27, 70_reset_and_hazards.md R161). -/
def loadReset (s : State) : State :=
  { s with yQ := ZERO, eqQ := false, qDefined := true }

/-- The registers take a free value (70_reset_and_hazards.md R164, 93_implementation_defined.md I13).
DESIGN CHOICE (log 4). -/
def captureUnknown (s : State) : State :=
  { s with
    yQ := Config.violatedY s.freeIndex
    eqQ := Config.violatedEq s.freeIndex
    qDefined := true
    freeIndex := s.freeIndex + 1 }

/-! ## The host's side of the ports -/

/-- The host drives `op`, `a` and `b`; the outputs then need `T_PROP` to settle
(70_reset_and_hazards.md R163). -/
def driveInputs (op : OpSelect) (a b : Word) (s : State) : State :=
  { s with op := op, a := a, b := b, settled := false }

/-- The host drives `rst` (10_state.md R21, R27). -/
def driveReset (r : Bool) (s : State) : State := { s with rst := r }

/-- The host makes the clock rise or not in the next step, with the inputs inside the set-up and hold
window or not (10_state.md R26, 70_reset_and_hazards.md R164). -/
def driveClock (c : Clk) (w : Bool) (s : State) : State := { s with clk := c, windowMet := w }

/-- Power is lost and comes back: `y_q` and `eq_q` hold no defined value (60_exceptions.md R151,
10_state.md R28), and the wires have not settled. DESIGN CHOICE (log 9). -/
def losePower (s : State) : State :=
  { s with
    settled := false
    yQ := Config.powerUpY s.freeIndex
    eqQ := Config.powerUpEq s.freeIndex
    qDefined := false
    freeIndex := s.freeIndex + 1 }

/-- A block of the given design right after power-up, before any edge (10_state.md R28). -/
def powerUp (d : Config.Design) : State := losePower { State.reset with design := d }

/-- A sample taken too early reads a free value (70_reset_and_hazards.md R163,
93_implementation_defined.md I12). DESIGN CHOICE (log 3). -/
def sampleUnsettled (s : State) : Output × State :=
  (⟨Config.unsettledY s.freeIndex, Config.unsettledEq s.freeIndex⟩,
    { s with freeIndex := s.freeIndex + 1 })

/-- The host reads `y` and `eq`: the registers when `OUT_REG = 1` (10_state.md R26), a fault while they
hold no value (10_state.md R28); else the settled wires (70_reset_and_hazards.md R163). -/
def sample (s : State) : Host.Outcome (Output × State) Fault Refusal :=
  match s.design.outReg with
  | true => if s.qDefined then .next (⟨s.yQ, s.eqQ⟩, s) else .fault .outputHasNoValue
  | false => if s.settled then .next (⟨s.y, s.eq⟩, s) else .next (sampleUnsettled s)

end Sys2Proof.Machine
end

