-- ==== Sys2Proof/Machine/Additive.lean ====
section
/-!
DEFINITION. The adder/subtractor and negation (42_additive.md R100, R116, R117).
-/

namespace Sys2Proof.Machine

/-- The `y` of ADD for a given `ADD_CORE`: the ordered overrides, then the core (42_additive.md R100,
60_exceptions.md R144). -/
def addWord (core : Word → Word → Word) (a b : Word) : Word :=
  if isNar a || isNar b then NAR
  else if isZero a then b
  else if isZero b then a
  else if a == flipSign b then ZERO
  else core a b

/-- The outputs of ADD (42_additive.md R100). -/
def addOutput (core : Word → Word → Word) (a b : Word) : Output := ⟨addWord core a b, noEqFlag⟩

/-- The `y` of NEG: the sentinels are unchanged, every other word has its outer sign bit flipped
(42_additive.md R117, R118; 90_conflicts.md C4). -/
def negWord (a : Word) : Word := if isBoundary a then a else flipSign a

/-- The outputs of NEG (42_additive.md R117). -/
def negOutput (a : Word) : Output := ⟨negWord a, noEqFlag⟩

/-- The `y` of SUB: ADD of `a` and NEG of `b` (42_additive.md R116). -/
def subWord (core : Word → Word → Word) (a b : Word) : Word := addWord core a (negWord b)

/-- The outputs of SUB (42_additive.md R116). -/
def subOutput (core : Word → Word → Word) (a b : Word) : Output := ⟨subWord core a b, noEqFlag⟩

/-- ADD (42_additive.md R100). -/
def execAdd (s : State) : Host.Outcome State Fault Refusal :=
  .next (deliver (addOutput (addCore s.design.addCore) (operandA s) (operandB s)) s)

/-- SUB (42_additive.md R116). -/
def execSub (s : State) : Host.Outcome State Fault Refusal :=
  .next (deliver (subOutput (addCore s.design.addCore) (operandA s) (operandB s)) s)

/-- NEG; `b` is not read (42_additive.md R117, 30_encoding.md R59). -/
def execNeg (s : State) : Host.Outcome State Fault Refusal :=
  .next (deliver (negOutput (operandA s)) s)

end Sys2Proof.Machine
end

