-- ==== Sys2Proof/Machine/Equality.lean ====
section
/-!
DEFINITION. EQ: bitwise equality with a pass-through of `a` (40_representation.md R74).
-/

namespace Sys2Proof.Machine

/-- The outputs of EQ: `y` is `a`, and `eq` compares all 32 bits (40_representation.md R74). -/
def eqOutput (a b : Word) : Output := ⟨a, eqFlag a b⟩

/-- EQ (40_representation.md R74). -/
def execEq (s : State) : Host.Outcome State Fault Refusal :=
  .next (deliver (eqOutput (operandA s) (operandB s)) s)

end Sys2Proof.Machine
end

