-- ==== Sys2Proof/Machine/Multiplicative.lean ====
section
/-!
DEFINITION. The multiplier, the divider and the square-root unit (41_multiplicative.md).

Each computes a raw result and then applies its ordered overrides (40_representation.md R73). A raw
result that lands on a sentinel pattern is kept (41_multiplicative.md R81, R84).
-/

namespace Sys2Proof.Machine

/-- The raw sign of a product or quotient: `a[31] ^ b[31]` (41_multiplicative.md R80, R83). -/
def rawSign (a b : Word) : Bool := sign a ^^ sign b

/-- MUL before its overrides: a 31-bit add, the carry out of bit 30 discarded (41_multiplicative.md
R80). -/
def rawMul (a b : Word) : Word := mkWord (rawSign a b) (field a + field b)

/-- The `y` of MUL; NAR comes before ZERO (41_multiplicative.md R80, 90_conflicts.md C2). -/
def mulWord (a b : Word) : Word :=
  if isNar a || isNar b then NAR
  else if isZero a || isZero b then ZERO
  else rawMul a b

/-- The outputs of MUL (41_multiplicative.md R80). -/
def mulOutput (a b : Word) : Output := ⟨mulWord a b, noEqFlag⟩

/-- DIV before its overrides: a 31-bit subtract, the borrow out of bit 30 discarded
(41_multiplicative.md R83). -/
def rawDiv (a b : Word) : Word := mkWord (rawSign a b) (field a - field b)

/-- The `y` of DIV: a NAR operand or a ZERO divisor comes before a ZERO dividend (41_multiplicative.md
R83, 90_conflicts.md C3). -/
def divWord (a b : Word) : Word :=
  if isNar a || isNar b || isZero b then NAR
  else if isZero a then ZERO
  else rawDiv a b

/-- The outputs of DIV (41_multiplicative.md R83). -/
def divOutput (a b : Word) : Output := ⟨divWord a b, noEqFlag⟩

/-- SQRT before its overrides: the field shifted right by one, arithmetically, and the outer sign bit
cleared (41_multiplicative.md R85). -/
def rawSqrt (a : Word) : Word := mkWord false ((field a).sshiftRight 1)

/-- The `y` of SQRT: every word with bit 31 set gives NAR (41_multiplicative.md R85). -/
def sqrtWord (a : Word) : Word :=
  if isNar a || sign a then NAR
  else if isZero a then ZERO
  else rawSqrt a

/-- The outputs of SQRT (41_multiplicative.md R85). -/
def sqrtOutput (a : Word) : Output := ⟨sqrtWord a, noEqFlag⟩

/-- MUL (41_multiplicative.md R80). -/
def execMul (s : State) : Host.Outcome State Fault Refusal :=
  .next (deliver (mulOutput (operandA s) (operandB s)) s)

/-- DIV (41_multiplicative.md R83). -/
def execDiv (s : State) : Host.Outcome State Fault Refusal :=
  .next (deliver (divOutput (operandA s) (operandB s)) s)

/-- SQRT; `b` is not read (41_multiplicative.md R85, 30_encoding.md R59). -/
def execSqrt (s : State) : Host.Outcome State Fault Refusal :=
  .next (deliver (sqrtOutput (operandA s)) s)

end Sys2Proof.Machine
end

