-- ==== Sys2Proof/Machine/Reserved.lean ====
section
/-!
DEFINITION. The reserved select `op = 111`, which has an effect although it is no operation
(30_encoding.md R60).
-/

namespace Sys2Proof.Machine

/-- Under `op = 111` the block drives NAR and `eq = 0`, whatever `a` and `b` hold (30_encoding.md
R60). -/
def reservedOutput : Output := ⟨NAR, noEqFlag⟩

/-- The evaluation of `op = 111` (30_encoding.md R60). The spec also lets a model refuse it
(93_implementation_defined.md I4); this one takes the effect. -/
def execReserved (s : State) : Host.Outcome State Fault Refusal :=
  .next (deliver reservedOutput s)

end Sys2Proof.Machine
end

