-- ==== Sys2Proof/Machine/Step.lean ====
section
/-!
DEFINITION. One step of the block, and how an instruction comes to stand on its ports.

With `OUT_REG = 0` a step is one evaluation, the inputs held for `T_PROP` (70_reset_and_hazards.md
R163). With `OUT_REG = 1` a step is one event at the clock wire (10_state.md R26, R27). The block fetches
nothing: the operation arrives on `op` (10_state.md R23, 20_memory.md R49).
-/

namespace Sys2Proof.Machine

/-- The operation that `op` selects, evaluated on the input ports; `op = 111` has its own effect
(30_encoding.md R58, R60). -/
def runSelected (s : State) : Host.Outcome State Fault Refusal :=
  match decode s.op with
  | .ok i => exec i s
  | .error .reservedSelect => execReserved s

/-- One step (10_state.md R20, R26, R27; 70_reset_and_hazards.md R161, R164). -/
def step (s : State) : Host.Outcome State Fault Refusal :=
  match edgeAction s with
  | .evaluate => runSelected s
  | .hold => .next s
  | .loadReset => .next (loadReset s)
  | .captureUnknown => .next (captureUnknown s)

/-- The host drives `op` with the instruction whose `nbits` bits are `w`, and lets the next step evaluate
it: `rst` is low and, with `OUT_REG = 1`, the clock rises inside the window. Log 6 says how a program
comes to run. -/
def State.withFetchWord (s : State) (nbits w : Nat) : State :=
  driveClock .rises true
    (driveReset false (driveInputs (selectOfNat (w % 2 ^ nbits)) s.a s.b s))

end Sys2Proof.Machine
end

