-- ==== Sys2Proof/Machine/Eval.lean ====
section
/-!
DEFINITION. The block as the pure function `eval(op, a, b) -> (y, eq)` of 10_state.md R20, with no state
argument.
-/

namespace Sys2Proof.Machine

/-- The outputs of one operation on two operand words (30_encoding.md R58, R59). -/
def evalInstr (core : Word → Word → Word) (i : Instr) (a b : Word) : Output :=
  match i with
  | .mul => mulOutput a b
  | .div => divOutput a b
  | .add => addOutput core a b
  | .sub => subOutput core a b
  | .sqrt => sqrtOutput a
  | .neg => negOutput a
  | .eq => eqOutput a b

/-- `eval(op, a, b)`: total over all eight selects (10_state.md R20, 30_encoding.md R61). -/
def eval (core : Word → Word → Word) (op : OpSelect) (a b : Word) : Output :=
  match decode op with
  | .ok i => evalInstr core i a b
  | .error .reservedSelect => reservedOutput

/-- `eval` of the input ports of a state, with the design's `ADD_CORE`. -/
def evalPorts (s : State) : Output := eval (addCore s.design.addCore) s.op s.a s.b

end Sys2Proof.Machine
end

