-- ==== Sys2Proof/Machine/HostSide.lean ====
section
/-!
DEFINITION. What the spec says of the host that uses the block: the pseudo-instructions of 30_encoding.md
R64, the identity conversions of 40_representation.md R70, R71, and a word's bytes in the host's memory
(20_memory.md R42). None of it is an operation of the block (30_encoding.md R62, R64).
-/

namespace Sys2Proof.Machine

/-! ## Raw bits -/

/-- `from_bits`: the identity on the 32 wires of a port (40_representation.md R70). -/
def fromBits (n : BitVec 32) : Word := n

/-- `to_bits`: the identity on the 32 wires of a port (40_representation.md R70). -/
def toBits (w : Word) : BitVec 32 := w

/-- `default()` yields ZERO (40_representation.md R71). -/
def defaultWord : Word := ZERO

/-! ## Pseudo-instructions -/

/-- The pseudo-instructions (30_encoding.md R64). -/
inductive Pseudo where
  | mulAssign
  | divAssign
  | addAssign
  | subAssign
  | fromBits
  | toBits
  | default
  | mov
  | ne
deriving DecidableEq, Repr

/-- What a pseudo-instruction expands to. -/
inductive Expansion where
  /-- One evaluation; its first operand stands on both ports when `twice` is set. -/
  | evaluate (i : Instr) (twice : Bool)
  /-- A host move of the first operand; the block is not used. -/
  | move
  /-- A host move of a constant; the block is not used. -/
  | constant (w : Word)
deriving DecidableEq, Repr

/-- The expansions (30_encoding.md R64). -/
def expand : Pseudo → Expansion
  | .mulAssign => .evaluate .mul false
  | .divAssign => .evaluate .div false
  | .addAssign => .evaluate .add false
  | .subAssign => .evaluate .sub false
  | .fromBits => .move
  | .toBits => .move
  | .default => .constant defaultWord
  | .mov => .evaluate .eq true
  | .ne => .evaluate .eq false

/-- What the host obtains from an expansion on `vA` and `vB`. -/
def runExpansion (core : Word → Word → Word) (e : Expansion) (vA vB : Word) : Output :=
  match e with
  | .evaluate i twice => evalInstr core i vA (if twice then vA else vB)
  | .move => ⟨vA, noEqFlag⟩
  | .constant w => ⟨w, noEqFlag⟩

/-- The word a pseudo-instruction leaves in its destination `vD` (30_encoding.md R64). -/
def pseudoWord (core : Word → Word → Word) (p : Pseudo) (vA vB : Word) : Word :=
  (runExpansion core (expand p) vA vB).y

/-- The host bit that `NE f, vA, vB` computes: `f <- 1 - g` with `g` the `eq` of EQ (30_encoding.md
R64). -/
def neFlag (core : Word → Word → Word) (vA vB : Word) : Bool :=
  !(runExpansion core (expand .ne) vA vB).eq

/-! ## Bytes in the host's memory -/

/-- `HOST_BYTE_ORDER`, an open parameter of the host: any order of a word's four bytes. The byte that
stands at address offset `i` is byte `o i` of the word (20_memory.md R42; log 12). -/
abbrev ByteOrder := Equiv.Perm (Fin 4)

/-- The least significant byte at the lowest address: one value of the parameter. -/
def littleEndian : ByteOrder := Equiv.refl (Fin 4)

/-- The most significant byte at the lowest address: another value. -/
def bigEndian : ByteOrder := Fin.revPerm

/-- Byte `i` of a word, byte 0 the least significant. -/
def byteOf (w : Word) (i : Fin 4) : BitVec 8 := w.extractLsb' (8 * i.val) 8

/-- The word whose byte `i` is `f i`. -/
def ofBytes (f : Fin 4 → BitVec 8) : Word := f 3 ++ f 2 ++ f 1 ++ f 0

/-- The four bytes of a word, lowest address first (20_memory.md R42). -/
def storeWord (o : ByteOrder) (w : Word) : List (BitVec 8) := List.ofFn fun i => byteOf w (o i)

/-- The word of four bytes, lowest address first; `none` for another number of bytes (20_memory.md
R42, R44). -/
def loadWord (o : ByteOrder) (bytes : List (BitVec 8)) : Option Word :=
  if h : bytes.length = 4 then some (ofBytes fun k => bytes.get ((o.symm k).cast h.symm)) else none

end Sys2Proof.Machine
end

