-- ==== Sys2Proof/Machine/RealValue.lean ====
section
/-!
DEFINITION. The real numbers the words stand for (30_encoding.md R51), and the reference `ADD_CORE` as
42_additive.md R111 writes it, over the reals. No step evaluates these; statements are made with them.
-/

namespace Sys2Proof.Machine

/-- `2^(x/N)`: the magnitude of a word whose signed field is `x` (30_encoding.md R51). -/
noncomputable def magnitude (x : Int) : ℝ := (2 : ℝ) ^ ((x : ℝ) / (Config.scale : ℝ))

/-- `value(w)` for a word that is no sentinel: `(-1)^sign * 2^(s31(field)/N)` (30_encoding.md R51). -/
noncomputable def signedMagnitude (w : Word) : ℝ :=
  (if sign w then -1 else 1) * magnitude (logField w)

/-- `value(w)`: the real number a word encodes, `none` for NAR, which is no real number (30_encoding.md
R51). -/
noncomputable def value (w : Word) : Option ℝ :=
  if isZero w then some 0 else if isNar w then none else some (signedMagnitude w)

/-- The integer `r` of 42_additive.md R111 for an exact sum `S`: the field, before `wrap31`, of the
representable magnitude nearest to `|S|`, an exact tie to the even one. -/
noncomputable def roundedLog (S : ℝ) : Int :=
  let L : ℝ := Config.scale * Real.logb 2 |S|
  let k : Int := ⌊L⌋
  let lo : ℝ := magnitude k
  let hi : ℝ := magnitude (k + 1)
  open Classical in
  if |S| - lo < hi - |S| then k
  else if |S| - lo > hi - |S| then k + 1
  else if k % 2 = 0 then k else k + 1

/-- `ADD_CORE(a, b)` as 42_additive.md R111 writes it. -/
noncomputable def exactSumCore (a b : Word) : Word :=
  let S := signedMagnitude a + signedMagnitude b
  open Classical in
  mkWord (decide (S < 0)) (wrap31 (roundedLog S))

/-- A real lies within the bounds of an interval at precision `p`. -/
def Encloses (p : Nat) (x : Interval) (v : ℝ) : Prop :=
  (x.lo : ℝ) ≤ v * 2 ^ p ∧ v * 2 ^ p ≤ (x.hi : ℝ)

end Sys2Proof.Machine
end

