-- ==== Sys2Proof/Safety.lean ====
section
/-!
DEFINITION. What counts as a safe run of the block, in the terms the statements use.
-/

namespace Sys2Proof

open Machine

/-- The outcome is a next state: no fault and no refusal (60_exceptions.md R140). -/
def AnswersNext (o : Host.Outcome State Fault Refusal) : Prop := ∃ t, o = .next t

/-- What the outputs show: the registers when `OUT_REG = 1`, else the wires as they last settled
(10_state.md R20, R26). -/
def outputs (s : State) : Output :=
  match s.design.outReg with
  | false => ⟨s.y, s.eq⟩
  | true => ⟨s.yQ, s.eqQ⟩

/-- The invariant of the combinational block: once the outputs have settled they are `eval` of the
inputs (70_reset_and_hazards.md R163), and the design parameters describe a block (00_scope.md R6). -/
structure Inv (s : State) : Prop where
  design_wf : s.design.wf = true
  settled_eval : s.design.outReg = false → s.settled = true → outputs s = evalPorts s

/-- The states of the runs of a block of any well-formed design, from its reset state, under a host that
may drive its ports, sample it or remove its power between steps. -/
inductive Reachable : State → Prop where
  | start (d : Config.Design) : d.wf = true → Reachable { State.reset with design := d }
  | step {s t : State} : Reachable s → step s = .next t → Reachable t
  | driveInputs {s : State} (op : OpSelect) (a b : Word) :
      Reachable s → Reachable (driveInputs op a b s)
  | driveReset {s : State} (r : Bool) : Reachable s → Reachable (driveReset r s)
  | driveClock {s : State} (c : Clk) (w : Bool) : Reachable s → Reachable (driveClock c w s)
  | sample {s t : State} (o : Output) : Reachable s → sample s = .next (o, t) → Reachable t
  | losePower {s : State} : Reachable s → Reachable (losePower s)

end Sys2Proof
end

