-- ==== Sys2Proof/Certificates/Slice0/Obligations.lean ====
section
/-!
DEFINITION. The statements for the provers.
-/

namespace Sys2Proof.Statements

open Machine

/-- `t` is `s` with the outputs `w` and `e` delivered: in the registers when `OUT_REG = 1`, else on the
settled wires. Every other field of `t` is that of `s`: this is the frame of every operation. -/
def DeliversTo (s t : State) (w : Word) (e : Bool) : Prop :=
  t = match s.design.outReg with
    | false => { s with y := w, eq := e, settled := true }
    | true => { s with yQ := w, eqQ := e, qDefined := true }

/-- Every execution of `i` answers a next state, whose outputs are given, and whose other fields are
unchanged. -/
def Completes (i : Instr) (w : State → Word) (e : State → Bool) : Prop :=
  ∀ s : State, ∃ t : State, exec i s = .next t ∧ DeliversTo s t (w s) (e s)

/-- The step evaluates: always with `OUT_REG = 0`; with `OUT_REG = 1` at a rising edge, inside the
window, with `rst` low (10_state.md R20, R26). -/
def Evaluates (s : State) : Prop :=
  s.design.outReg = false ∨ s.clk = .rises ∧ s.windowMet = true ∧ s.rst = false

/-- The word is no sentinel (30_encoding.md R53). -/
def Plain (w : Word) : Prop := w ≠ 0x40000000 ∧ w ≠ 0xC0000000

end Sys2Proof.Statements

open Sys2Proof Sys2Proof.Machine Sys2Proof.Statements

/-! ## Encoding -/

/-- The select of each row of 30_encoding.md R58, written out, decodes to its operation, and `111` is
rejected by name. -/
def Obligations.SelectsDecodeAsTabled : Prop :=
  decode 0b000 = .ok .mul ∧ decode 0b001 = .ok .div ∧ decode 0b010 = .ok .add ∧
    decode 0b011 = .ok .sub ∧ decode 0b100 = .ok .sqrt ∧ decode 0b101 = .ok .neg ∧
    decode 0b110 = .ok .eq ∧ decode 0b111 = .error .reservedSelect

/-- Decoding and encoding the 67-bit input vectors of 30_encoding.md R63 are inverse to each other, for
every operation and every pair of operand words; what no operation encodes to is exactly the vectors
whose top three bits are 111. -/
def Obligations.InputVectorRoundTrip : Prop :=
  (∀ (i : Instr) (a b : Word), i.wf = true → decodeVector (encodeVector i a b) = .ok ⟨i, a, b⟩) ∧
    (∀ (v : InputVector) (e : Evaluation), decodeVector v = .ok e → encodeVector e.instr e.a e.b = v) ∧
    (∀ v : InputVector, decodeVector v = .error .reservedSelect ↔ v.toNat / 2 ^ 64 = 7) ∧
    (∀ (i : Instr) (a b : Word),
      (encodeVector i a b).toNat = (encode i).toNat * 2 ^ 64 + a.toNat * 2 ^ 32 + b.toNat)

/-! ## The step -/

/-- A step whose select decodes to `i` runs `exec i`; what else a step does, it does by the clock and the
reset alone (10_state.md R23, R26, R27). What it does when the window is broken is the model's choice
(log 4). -/
def Obligations.StepRunsDecodedInstruction : Prop :=
  (∀ (s : State) (i : Instr), decode s.op = .ok i → i.wf = true → Evaluates s → step s = exec i s) ∧
    (∀ s : State, ¬Evaluates s →
      step s = .next (match s.clk, s.windowMet with
        | .quiet, _ => s
        | .rises, true => loadReset s
        | .rises, false => captureUnknown s))

/-- A table word that decodes to `i`, driven on `op`, is run by the very next step, on the operands that
stood on the ports (log 6). -/
def Obligations.DrivenTableWordRunsNext : Prop :=
  ∀ (s : State) (n w : Nat) (i : Instr), decodeTableWord n w = some i →
    step (s.withFetchWord n w) = exec i (s.withFetchWord n w) ∧
      (s.withFetchWord n w).a = s.a ∧ (s.withFetchWord n w).b = s.b ∧
      (s.withFetchWord n w).design = s.design

/-- Every step and every instruction answers a next state, from every state: there is no exception, no
trap, no stall (60_exceptions.md R140, 70_reset_and_hazards.md R168). -/
def Obligations.NoStepFaultsOrRefuses : Prop :=
  (∀ s : State, AnswersNext (step s)) ∧ ∀ (i : Instr) (s : State), AnswersNext (exec i s)

/-- An evaluating step delivers `eval(op, a, b)`, for all eight selects, and changes nothing else
(10_state.md R20, 30_encoding.md R61). -/
def Obligations.StepDeliversEval : Prop :=
  ∀ s : State, Evaluates s → ∃ t, step s = .next t ∧
    DeliversTo s t (eval (addCore s.design.addCore) s.op s.a s.b).y
      (eval (addCore s.design.addCore) s.op s.a s.b).eq

/-- What any step may change: never the inputs, never the design; the registers only in a block that has
them, at a rising edge; the wires only in a block without them (10_state.md R20, R25, R26). -/
def Obligations.StepFrame : Prop :=
  ∀ s t : State, step s = .next t →
    t.design = s.design ∧ t.op = s.op ∧ t.a = s.a ∧ t.b = s.b ∧ t.rst = s.rst ∧ t.clk = s.clk ∧
      t.windowMet = s.windowMet ∧
      (s.design.outReg = true → t.y = s.y ∧ t.eq = s.eq ∧ t.settled = s.settled) ∧
      ((s.design.outReg = false ∨ s.clk = .quiet) →
        t.yQ = s.yQ ∧ t.eqQ = s.eqQ ∧ t.qDefined = s.qDefined) ∧
      (s.windowMet = true → t.freeIndex = s.freeIndex)

/-- The invariant holds after every step from every state that has it: settled outputs are `eval` of the
inputs (70_reset_and_hazards.md R163), and the design stays a design. -/
def Obligations.StepKeepsInvariant : Prop :=
  ∀ s t : State, Inv s → step s = .next t → Inv t

/-- The state after reset has the invariant; its input ports are the model's choice (log 1). -/
def Obligations.ResetHasInvariant : Prop := Inv State.reset

/-- The invariant holds in every state that a block of any well-formed design reaches under a host that
drives its ports, samples it and removes its power as it likes. -/
def Obligations.ReachableStatesHaveInvariant : Prop := ∀ s : State, Reachable s → Inv s

/-- The result of an evaluation depends on the design and the inputs of that evaluation alone, whatever
was evaluated before (10_state.md R29, R31; 20_memory.md R44). -/
def Obligations.ResultsDependOnInputsAlone : Prop :=
  ∀ s u t v : State, s.design = u.design → s.op = u.op → s.a = u.a → s.b = u.b →
    Evaluates s → Evaluates u → step s = .next t → step u = .next v → outputs t = outputs v

/-- Evaluating the same inputs again changes nothing, in either form of the block (20_memory.md R44). -/
def Obligations.EvaluationIsIdempotent : Prop :=
  ∀ s t : State, Evaluates s → step s = .next t → step t = .next t

/-! ## The output register and the timing contract -/

/-- The state after reset holds `0x40000000` and 0 in the registers, defined, in the default design
(00_scope.md R6). The values are those of 10_state.md R27 and 70_reset_and_hazards.md R161, which speak of
a block with `OUT_REG = 1`; that the registers hold them, and count as defined, in a design with
`OUT_REG = 0`, where they play no part, is the model's choice (log 17). -/
def Obligations.ResetStateHoldsResetValues : Prop :=
  State.reset.yQ = 0x40000000 ∧ State.reset.eqQ = false ∧ State.reset.qDefined = true ∧
    State.reset.design.outReg = false ∧ State.reset.design.addCore = .reference

/-- At a rising edge with `rst == 1` (and the window met) the registers load `0x40000000` and 0, whatever
the operation and the operands are, and nothing else changes (10_state.md R27, 70_reset_and_hazards.md
R161). -/
def Obligations.ResetEdgeLoadsResetValues : Prop :=
  ∀ s : State, s.design.outReg = true → s.clk = .rises → s.windowMet = true → s.rst = true →
    step s = .next { s with yQ := 0x40000000, eqQ := false, qDefined := true }

/-- At a rising edge with `rst == 0` (and the window met) the registers capture `eval` of the inputs, and
with no rising edge nothing changes (10_state.md R26). -/
def Obligations.RegisterCapturesOnlyAtEdges : Prop :=
  (∀ s : State, s.design.outReg = true → s.clk = .rises → s.windowMet = true → s.rst = false →
    step s = .next { s with yQ := (evalPorts s).y, eqQ := (evalPorts s).eq, qDefined := true }) ∧
    (∀ s : State, s.design.outReg = true → s.clk = .quiet → step s = .next s)

/-- The result of the inputs at a capture edge is on the outputs from just after that edge, whatever the
host drives next, until the next edge (70_reset_and_hazards.md R164). -/
def Obligations.RegisterLatencyIsOneEdge : Prop :=
  ∀ (s t : State) (op : OpSelect) (a b : Word) (r w : Bool), s.design.outReg = true →
    s.clk = .rises → s.windowMet = true → s.rst = false → step s = .next t →
    ∃ u v, u = driveClock .quiet w (driveReset r (driveInputs op a b t)) ∧
      sample u = .next (evalPorts s, u) ∧ step u = .next v ∧ sample v = .next (evalPorts s, v)

/-- With `OUT_REG = 1`, after power-up a read of the outputs faults, and still does after any step without
a rising edge; after a rising edge a read answers (10_state.md R28). With `OUT_REG = 0` no read faults.
Two clauses rest on the model's choices: that the registers count as holding a value after a first edge
that breaks the window too is log 4, and that a read of unsettled outputs answers, with a free value, is
log 3. -/
def Obligations.ReadFaultsUntilFirstEdge : Prop :=
  (∀ s : State, s.design.outReg = true → sample (losePower s) = .fault .outputHasNoValue) ∧
    (∀ s t : State, s.design.outReg = true → s.clk = .quiet →
      sample s = .fault .outputHasNoValue → step s = .next t → sample t = .fault .outputHasNoValue) ∧
    (∀ s t : State, s.design.outReg = true → s.clk = .rises → step s = .next t →
      ∃ o, sample t = .next (o, t)) ∧
    (∀ s : State, s.design.outReg = false → ∃ o t, sample s = .next (o, t))

/-- With `OUT_REG = 0`, after a step the outputs read `eval` of the inputs, and a new input unsettles them
(70_reset_and_hazards.md R163); what they then read is the model's free value (log 3). -/
def Obligations.SettledOutputsReadEval : Prop :=
  (∀ s t : State, s.design.outReg = false → step s = .next t → sample t = .next (evalPorts s, t)) ∧
    (∀ (s : State) (op : OpSelect) (a b : Word), s.design.outReg = false →
      sample (driveInputs op a b s) = .next (sampleUnsettled (driveInputs op a b s)))

/-- An edge that breaks the window leaves a value in the registers that no rule gives, and changes nothing
else but the model's own index of free values (93_implementation_defined.md I13; log 4). -/
def Obligations.BrokenWindowChangesOnlyRegisters : Prop :=
  ∀ s : State, s.design.outReg = true → s.clk = .rises → s.windowMet = false →
    ∃ t : State, step s = .next t ∧ t.qDefined = true ∧
      t = { s with yQ := t.yQ, eqQ := t.eqQ, qDefined := true, freeIndex := t.freeIndex }

/-! ## The operations -/

/-- MUL: the overrides, then the sign XOR and the wrapped sum of the signed fields (41_multiplicative.md
R80). -/
def Obligations.MulResult : Prop :=
  decode 0b000 = .ok .mul ∧ Completes .mul
    (fun s =>
      if s.a = 0xC0000000 ∨ s.b = 0xC0000000 then 0xC0000000
      else if s.a = 0x40000000 ∨ s.b = 0x40000000 then 0x40000000
      else mkWord (sign s.a ^^ sign s.b) (wrap31 (logField s.a + logField s.b)))
    (fun _ => false)

/-- DIV: the overrides, then the sign XOR and the wrapped difference of the signed fields
(41_multiplicative.md R83). -/
def Obligations.DivResult : Prop :=
  decode 0b001 = .ok .div ∧ Completes .div
    (fun s =>
      if s.a = 0xC0000000 ∨ s.b = 0xC0000000 ∨ s.b = 0x40000000 then 0xC0000000
      else if s.a = 0x40000000 then 0x40000000
      else mkWord (sign s.a ^^ sign s.b) (wrap31 (logField s.a - logField s.b)))
    (fun _ => false)

/-- SQRT: the overrides, then the floor of half the signed field (41_multiplicative.md R85). -/
def Obligations.SqrtResult : Prop :=
  decode 0b100 = .ok .sqrt ∧ Completes .sqrt
    (fun s =>
      if s.a = 0xC0000000 ∨ sign s.a = true then 0xC0000000
      else if s.a = 0x40000000 then 0x40000000
      else mkWord false (wrap31 (logField s.a / 2)))
    (fun _ => false)

/-- ADD: the overrides, exact cancellation, then the design's `ADD_CORE` (42_additive.md R100). -/
def Obligations.AddResult : Prop :=
  decode 0b010 = .ok .add ∧ Completes .add
    (fun s =>
      if s.a = 0xC0000000 ∨ s.b = 0xC0000000 then 0xC0000000
      else if s.a = 0x40000000 then s.b
      else if s.b = 0x40000000 then s.a
      else if field s.a = field s.b ∧ sign s.a ≠ sign s.b then 0x40000000
      else addCore s.design.addCore s.a s.b)
    (fun _ => false)

/-- SUB: ADD of `a` and the negated `b` (42_additive.md R116), its overrides written for `b`. -/
def Obligations.SubResult : Prop :=
  decode 0b011 = .ok .sub ∧ Completes .sub
    (fun s =>
      if s.a = 0xC0000000 ∨ s.b = 0xC0000000 then 0xC0000000
      else if s.b = 0x40000000 then s.a
      else if s.a = 0x40000000 then mkWord (!sign s.b) (field s.b)
      else if s.a = s.b then 0x40000000
      else addCore s.design.addCore s.a (mkWord (!sign s.b) (field s.b)))
    (fun _ => false)

/-- NEG: a sentinel is unchanged, every other word keeps its field and changes its sign (42_additive.md
R117). -/
def Obligations.NegResult : Prop :=
  decode 0b101 = .ok .neg ∧ Completes .neg
    (fun s =>
      if s.a = 0x40000000 ∨ s.a = 0xC0000000 then s.a else mkWord (!sign s.a) (field s.a))
    (fun _ => false)

/-- EQ: `a` passes through, `eq` is bitwise equality (40_representation.md R74). -/
def Obligations.EqResult : Prop :=
  decode 0b110 = .ok .eq ∧ Completes .eq (fun s => s.a) (fun s => decide (s.a = s.b))

/-- `op = 111` drives NAR and 0, whatever the operands (30_encoding.md R60). -/
def Obligations.ReservedSelectDrivesNar : Prop :=
  ∀ s : State, s.op = 0b111 → Evaluates s →
    ∃ t, step s = .next t ∧ DeliversTo s t 0xC0000000 false

/-- `eq` is 1 only under EQ with equal operands (10_state.md R21, R24; 40_representation.md R74). -/
def Obligations.EqOutputOnlyUnderEq : Prop :=
  ∀ (core : Word → Word → Word) (op : OpSelect) (a b : Word),
    (eval core op a b).eq = true ↔ op = 0b110 ∧ a = b

/-- SQRT and NEG do not depend on `b` (30_encoding.md R59). -/
def Obligations.UnaryOperationsIgnoreB : Prop :=
  ∀ (core : Word → Word → Word) (a b b' : Word),
    eval core 0b100 a b = eval core 0b100 a b' ∧ eval core 0b101 a b = eval core 0b101 a b'

/-! ## Laws of the multiplicative unit -/

/-- A raw product that lands on the boundary is kept: it is ZERO or NAR by the outer sign, and for
non-sentinel operands this happens exactly when the signed fields sum to `2^30` or `-2^30`
(41_multiplicative.md R81). -/
def Obligations.MulLandsOnSentinel : Prop :=
  (∀ a b : Word, Plain a → Plain b →
    (field (rawMul a b) = 0x40000000 ↔
      logField a + logField b = 2 ^ 30 ∨ logField a + logField b = -2 ^ 30) ∧
    (field (rawMul a b) = 0x40000000 →
      mulWord a b = if sign a = sign b then 0x40000000 else 0xC0000000)) ∧
    mulWord 0xBFFFFFFF 0x00000001 = 0xC0000000 ∧ mulWord 0x3FFFFFFF 0x00000001 = 0x40000000 ∧
    mulWord 0x40000001 0x7FFFFFFF = 0x40000000

/-- A raw quotient that lands on the boundary is kept likewise, exactly when the difference of the signed
fields is `2^30` or `-2^30` (41_multiplicative.md R84). -/
def Obligations.DivLandsOnSentinel : Prop :=
  (∀ a b : Word, Plain a → Plain b →
    (field (rawDiv a b) = 0x40000000 ↔
      logField a - logField b = 2 ^ 30 ∨ logField a - logField b = -2 ^ 30) ∧
    (field (rawDiv a b) = 0x40000000 →
      divWord a b = if sign a = sign b then 0x40000000 else 0xC0000000)) ∧
    divWord 0x7FFFFFFF 0x3FFFFFFF = 0x40000000 ∧ divWord 0xFFFFFFFF 0x3FFFFFFF = 0xC0000000 ∧
    divWord 0x3FFFFFFF 0x7FFFFFFF = 0x40000000

/-- The laws of MUL: commutative; the field is the unsigned sum modulo `2^31` as well; exact in the reals
when the sum is in range; NAR and ZERO absorb (41_multiplicative.md R82). -/
def Obligations.MulLaws : Prop :=
  (∀ a b : Word, mulWord a b = mulWord b a) ∧
    (∀ a b : Word, (field (rawMul a b)).toNat = ((field a).toNat + (field b).toNat) % 2 ^ 31 ∧
      field (rawMul a b) = wrap31 (logField a + logField b)) ∧
    (∀ a b : Word, Plain a → Plain b → -2 ^ 30 + 1 ≤ logField a + logField b →
      logField a + logField b ≤ 2 ^ 30 - 1 →
      value (mulWord a b) = some (signedMagnitude a * signedMagnitude b)) ∧
    (∀ a : Word, mulWord a 0xC0000000 = 0xC0000000 ∧ mulWord 0xC0000000 a = 0xC0000000) ∧
    (∀ a : Word, a ≠ 0xC0000000 → mulWord a 0x40000000 = 0x40000000 ∧ mulWord 0x40000000 a = 0x40000000)

/-- The corner cases of MUL and DIV on ONE and on equal operands (41_multiplicative.md R80, R83). -/
def Obligations.MulDivCornerCases : Prop :=
  (∀ x : Word, mulWord x 0x00000000 = x ∧ mulWord 0x00000000 x = x ∧ divWord x 0x00000000 = x) ∧
    (∀ x : Word, mulWord 0x80000000 x = negWord x) ∧
    (∀ x : Word, Plain x → mulWord x x = mkWord false (wrap31 (2 * logField x)) ∧
      divWord x x = 0x00000000 ∧
      divWord 0x00000000 x = mkWord (sign x) (wrap31 (-logField x)) ∧
      logField (divWord 0x00000000 x) = -logField x) ∧
    (∀ x : Word, divWord x 0x40000000 = 0xC0000000)

/-- The laws of SQRT: its raw field is in range, so it reaches no sentinel by arithmetic; it answers NAR
and ZERO only by its overrides; its square gives the operand back exactly when the field is even
(41_multiplicative.md R86). -/
def Obligations.SqrtLaws : Prop :=
  (∀ a : Word, -2 ^ 29 ≤ logField (rawSqrt a) ∧ logField (rawSqrt a) ≤ 2 ^ 29 - 1 ∧
    field (rawSqrt a) ≠ 0x40000000) ∧
    (∀ a : Word, (sqrtWord a = 0xC0000000 ↔ sign a = true) ∧
      (sqrtWord a = 0x40000000 ↔ a = 0x40000000)) ∧
    (∀ a : Word, sign a = false → a ≠ 0x40000000 →
      (mulWord (sqrtWord a) (sqrtWord a) = a ↔ logField a % 2 = 0) ∧
      (logField a % 2 = 1 →
        mulWord (sqrtWord a) (sqrtWord a) = mkWord false (wrap31 (logField a - 1)))) ∧
    sqrtWord 0x40000001 = 0x60000000 ∧
    mulWord (sqrtWord 0x40000001) (sqrtWord 0x40000001) = 0x40000000

/-! ## Laws of negation, equality and the sentinels -/

/-- NEG is its own inverse and never turns one sentinel into the other (42_additive.md R117, R118). -/
def Obligations.NegLaws : Prop :=
  (∀ x : Word, negWord (negWord x) = x) ∧ negWord 0x40000000 = 0x40000000 ∧
    negWord 0xC0000000 = 0xC0000000 ∧ negWord 0x00000000 = 0x80000000 ∧
    (∀ x : Word, Plain x → Plain (negWord x) ∧ negWord x ≠ x)

/-- EQ is an equivalence on all words, NAR included (40_representation.md R75). -/
def Obligations.EqIsEquivalence : Prop :=
  ∀ core : Word → Word → Word,
    (∀ a : Word, (eval core 0b110 a a).eq = true) ∧
    (∀ a b : Word, (eval core 0b110 a b).eq = (eval core 0b110 b a).eq) ∧
    (∀ a b c : Word, (eval core 0b110 a b).eq = true → (eval core 0b110 b c).eq = true →
      (eval core 0b110 a c).eq = true)

/-- NAR absorbs in every arithmetic operation, on either side, for any `ADD_CORE` (60_exceptions.md
R142). -/
def Obligations.NarAbsorbs : Prop :=
  ∀ (core : Word → Word → Word) (x : Word),
    mulWord x 0xC0000000 = 0xC0000000 ∧ mulWord 0xC0000000 x = 0xC0000000 ∧
      divWord x 0xC0000000 = 0xC0000000 ∧ divWord 0xC0000000 x = 0xC0000000 ∧
      addWord core x 0xC0000000 = 0xC0000000 ∧ addWord core 0xC0000000 x = 0xC0000000 ∧
      subWord core x 0xC0000000 = 0xC0000000 ∧ subWord core 0xC0000000 x = 0xC0000000 ∧
      sqrtWord 0xC0000000 = 0xC0000000 ∧ negWord 0xC0000000 = 0xC0000000

/-- The corner cases of SUB, for any `ADD_CORE` (42_additive.md R116). -/
def Obligations.SubCornerCases : Prop :=
  ∀ core : Word → Word → Word,
    (∀ a : Word, a ≠ 0xC0000000 → subWord core a 0x40000000 = a) ∧
    (∀ b : Word, b ≠ 0xC0000000 → subWord core 0x40000000 b = negWord b) ∧
    (∀ a : Word, Plain a → subWord core a a = 0x40000000) ∧
    subWord core 0x40000000 0x40000000 = 0x40000000

/-! ## What the words stand for -/

/-- Two non-sentinel words encode the same real number exactly when they are the same word, and none
encodes 0 (30_encoding.md R55). -/
def Obligations.WordsEncodeDistinctReals : Prop :=
  ∀ u w : Word, Plain u → Plain w → (value u = value w ↔ u = w) ∧ value u ≠ some 0 ∧ value u ≠ none

/-- Magnitude order is the order of the signed fields (30_encoding.md R56). -/
def Obligations.MagnitudeOrderIsFieldOrder : Prop :=
  ∀ u w : Word, Plain u → Plain w →
    (|signedMagnitude u| < |signedMagnitude w| ↔ logField u < logField w) ∧
      (|signedMagnitude u| = |signedMagnitude w| ↔ field u = field w)

/-! ## The adder, for every `ADD_CORE` -/

/-- Every `ADD_CORE` a well-formed design can have is commutative on its domain, takes the sign of the
dominant operand and gives the required vector; so ADD is commutative on all words, and delivers the
core's result as it stands (42_additive.md R102, R103, R105). For the free and the staged cores it rests
on how the model builds them (log 7, log 8). -/
def Obligations.EveryDesignCoreConforms : Prop :=
  ∀ d : Config.Design, d.wf = true → Conforms (addCore d.addCore) ∧
    (∀ a b : Word, addWord (addCore d.addCore) a b = addWord (addCore d.addCore) b a) ∧
    (∀ a b : Word, inAddDomain a b = true →
      addWord (addCore d.addCore) a b = addCore d.addCore a b) ∧
    addWord (addCore d.addCore) 0x3FFFFFFF 0x343BFAE6 = 0x40000000

/-- Every function that meets the spec's constraints, in a design or not, makes ADD commutative, and its
sum of two negative words is negative, so that the source's vector S5 cannot hold (42_additive.md R101
to R103, 90_conflicts.md C5). -/
def Obligations.EveryConformingCoreRejectsS5 : Prop :=
  ∀ core : Word → Word → Word, Conforms core →
    (∀ a b : Word, addWord core a b = addWord core b a) ∧
    (∀ a b : Word, inAddDomain a b = true → sign a = true → sign b = true →
      sign (addWord core a b) = true) ∧
    addWord core 0xDEADBEEF 0xBEEFDEAD ≠ 0x1D9D9D9C

/-! ## The reference adder -/

/-- The evaluated reference adder is the rule as written over the reals: the exact sum, rounded in the
linear domain to the nearest representable magnitude, a tie to the even field, then wrapped
(42_additive.md R111). -/
def Obligations.ReferenceAdderIsRoundedExactSum : Prop :=
  ∀ a b : Word, inAddDomain a b = true → referenceCore a b = exactSumCore a b

/-- The same wherever the interval refinement decides the pair, or the pair is the tie: the evaluation of
42_additive.md R114 is sound for 42_additive.md R111, whether or not every refinement ends. -/
def Obligations.DecidedSumsAreRoundedExactSums : Prop :=
  ∀ a b : Word, inAddDomain a b = true →
    ((nearestExponent (relativeSum (sameSign a b) (logField a - logField b).natAbs)).isSome = true ∨
      sameSign a b = true ∧ (logField a - logField b).natAbs = 1) →
    referenceCore a b = exactSumCore a b

/-- The interval refinement decides every case it is used for (42_additive.md R114): some precision the
model allows (log 11) tells the nearest magnitude, for every distance but the tie and exact
cancellation. -/
def Obligations.RefinementAlwaysDecides : Prop :=
  ∀ (same : Bool) (d : Nat), d < 2 ^ 31 → ¬(same = true ∧ d = 1) → ¬(same = false ∧ d = 0) →
    (nearestExponent (relativeSum same d)).isSome = true

/-- An exact tie happens exactly when the signs agree and the signed fields are one apart, and the result
is then the even one of the two fields `m + N` and `m + N + 1` (42_additive.md R112). -/
def Obligations.TieIsOneStepApartAndGoesToEven : Prop :=
  (∀ a b : Word, inAddDomain a b = true →
    let S := |signedMagnitude a + signedMagnitude b|
    let k : Int := ⌊(Config.scale : ℝ) * Real.logb 2 S⌋
    let m := min (logField a) (logField b)
    (S - magnitude k = magnitude (k + 1) - S ↔
      sign a = sign b ∧ |logField a - logField b| = 1) ∧
    (sign a = sign b ∧ |logField a - logField b| = 1 →
      S = magnitude m * (1 + (2 : ℝ) ^ (1 / (2 : ℝ) ^ 23)) ∧
      S = (magnitude (m + 2 ^ 23) + magnitude (m + 2 ^ 23 + 1)) / 2 ∧
      referenceCore a b =
        mkWord (sign a) (wrap31 (if (m + 2 ^ 23) % 2 = 0 then m + 2 ^ 23 else m + 2 ^ 23 + 1)))) ∧
    referenceCore 0x00000000 0x00000001 = 0x00800000 ∧
    referenceCore 0x00000001 0x00000002 = 0x00800002

/-- The exact sum is a representable magnitude exactly when the operands are the same word or their signs
differ and one magnitude is twice the other; the result is then that magnitude (42_additive.md R113). -/
def Obligations.ExactSumsAreDoublingOrHalving : Prop :=
  (∀ a b : Word, inAddDomain a b = true →
    ((∃ k : Int, |signedMagnitude a + signedMagnitude b| = magnitude k) ↔
      a = b ∨ sign a ≠ sign b ∧ |logField a - logField b| = 2 ^ 23)) ∧
    (∀ a : Word, Plain a → referenceCore a a = mkWord (sign a) (wrap31 (logField a + 2 ^ 23))) ∧
    (∀ a b : Word, inAddDomain a b = true → sign a ≠ sign b → logField a - logField b = 2 ^ 23 →
      referenceCore a b = mkWord (sign a) (field b) ∧ referenceCore b a = mkWord (sign a) (field b)) ∧
    (∀ a b : Word, inAddDomain a b = true → signedMagnitude a + signedMagnitude b ≠ 0) ∧
    referenceCore 0x00000000 0x00000000 = 0x00800000 ∧
    referenceCore 0x3F800000 0x3F800000 = 0x40000000 ∧
    referenceCore 0x3FFFFFFF 0x3FFFFFFF = 0x407FFFFF ∧
    referenceCore 0x00800000 0x80000000 = 0x00000000

/-- The absorption thresholds of the reference adder, for a dominant `a` a distance `D` above `b`, and the
real inequalities they stand for (42_additive.md R115). -/
def Obligations.AbsorptionThresholds : Prop :=
  (∀ a b : Word, inAddDomain a b = true → logField b < logField a →
    (sign a = sign b → (referenceCore a b = a ↔ 205762206 ≤ logField a - logField b)) ∧
    (sign a ≠ sign b → (referenceCore a b = a ↔ 205762207 ≤ logField a - logField b))) ∧
    (∀ D : Int, 0 < D →
      (205762206 ≤ D ↔ magnitude (-D) < (magnitude 1 - 1) / 2) ∧
      (205762207 ≤ D ↔ magnitude (-D) < (1 - magnitude (-1)) / 2)) ∧
    referenceCore 0x20000000 0x13BC5163 = 0x20000001 ∧
    referenceCore 0x20000000 0x13BC5162 = 0x20000000

/-! ## The staged adder -/

/-- Stage 1 gives a signed mantissa in `(-1, 1)` that carries the operand's sign, and the integer part that
the implementation's convention says (42_additive.md R106). The mantissa is normalized under the floor,
and under the truncation wherever that is the floor; a truncated negative fraction, whose operand R106
cannot have reconstructed by a normalized mantissa, is left below `1/2` (log 8). -/
def Obligations.DecomposeIsNormalized : Prop :=
  ∀ (c : Config.Staged) (w : Word), c.wf = true →
    (decompose c w).mantissa.natAbs < 2 ^ (c.width - 1) ∧
      ((decompose c w).mantissa < 0 → sign w = true) ∧
      (0 < (decompose c w).mantissa → sign w = false) ∧
      (c.integerPart = .floor ∨ 0 ≤ logField w ∨ logField w % 2 ^ 23 = 0 →
        2 ^ (c.width - 2) ≤ (decompose c w).mantissa.natAbs) ∧
      (c.integerPart = .floor → (decompose c w).exponent * 2 ^ 23 ≤ logField w ∧
        logField w < ((decompose c w).exponent + 1) * 2 ^ 23) ∧
      (c.integerPart = .truncate → |(decompose c w).exponent * 2 ^ 23| ≤ |logField w| ∧
        |logField w - (decompose c w).exponent * 2 ^ 23| < 2 ^ 23)

/-- The pair of stage 1 reconstructs its operand, `value(w) = M * 2^(E + c)`, up to less than one unit in
the last place of the `W`-bit mantissa, and exactly where the operand is a power of two (42_additive.md
R106). That the `W`-bit precision is one unit in the last place is the model's reading (log 8). -/
def Obligations.DecomposeReconstructsOperand : Prop :=
  ∀ (c : Config.Staged) (w : Word), c.wf = true →
    let v := decompose c w
    let unit : ℝ := (2 : ℝ) ^ (v.exponent + c.offset) / 2 ^ (c.width - 1)
    |(v.mantissa : ℝ) * unit - signedMagnitude w| < unit ∧
      (logField w % 2 ^ 23 = 0 → (v.mantissa : ℝ) * unit = signedMagnitude w)

/-- Stage 2 keeps the mantissa of the larger exponent and shifts the other one by the distance between the
exponents (42_additive.md R107): a shift below the width is the floor of the division, and from the width
on it is exactly 0, for negative mantissas too. Stage 3 adds the two at the larger exponent, exactly, and
the sum of two mantissas in `(-1, 1)` stays in `(-2, 2)` and does not depend on the order of the operands
(42_additive.md R108). -/
def Obligations.AlignShiftsFloorAndVanish : Prop :=
  (∀ (w : Nat) (m : Int) (n : Nat), (w ≤ n → shiftMantissa w m n = 0) ∧
    (n < w → shiftMantissa w m n * 2 ^ n ≤ m ∧ m < (shiftMantissa w m n + 1) * 2 ^ n)) ∧
    (∀ (w : Nat) (x z : ExpMant), 0 < w → z.exponent ≤ x.exponent →
      align w x z = ⟨x.exponent, x.mantissa,
        shiftMantissa w z.mantissa (x.exponent - z.exponent).toNat⟩ ∧
      align w z x = ⟨x.exponent, shiftMantissa w z.mantissa (x.exponent - z.exponent).toNat,
        x.mantissa⟩) ∧
    (∀ v : Aligned, (sumAligned v).exponent = v.exponent ∧
      (sumAligned v).mantissa = v.left + v.right) ∧
    (∀ (w : Nat) (x z : ExpMant), 0 < w → x.mantissa.natAbs < 2 ^ (w - 1) →
      z.mantissa.natAbs < 2 ^ (w - 1) →
      (sumAligned (align w x z)).mantissa.natAbs ≤ 2 ^ w - 2) ∧
    (∀ (w : Nat) (x z : ExpMant), 0 < w → sumAligned (align w x z) = sumAligned (align w z x)) ∧
    (∀ (w : Nat) (x z : ExpMant), (align w x z).exponent = max x.exponent z.exponent)

/-- Stage 4 brings a sum of two mantissas back into `[1/2, 1)`, keeps its sign, and keeps its value but
for the bit a right shift drops (42_additive.md R108, R109; log 8). -/
def Obligations.RenormalizeRestoresRange : Prop :=
  ∀ (w : Nat) (opposite : Bool) (v : ExpMant), 2 ≤ w → v.mantissa ≠ 0 →
    v.mantissa.natAbs ≤ 2 ^ w - 2 → (opposite = false → 2 ^ (w - 2) ≤ v.mantissa.natAbs) →
    2 ^ (w - 2) ≤ (renormalize w opposite v).mantissa.natAbs ∧
      (renormalize w opposite v).mantissa.natAbs < 2 ^ (w - 1) ∧
      ((renormalize w opposite v).mantissa < 0 ↔ v.mantissa < 0) ∧
      (v.mantissa.natAbs < 2 ^ (w - 1) → ∃ k : Nat,
        (renormalize w opposite v).mantissa = v.mantissa * 2 ^ k ∧
        (renormalize w opposite v).exponent = v.exponent - k) ∧
      (2 ^ (w - 1) ≤ v.mantissa.natAbs →
        (renormalize w opposite v).exponent = v.exponent + 1 ∧
        (v.mantissa = 2 * (renormalize w opposite v).mantissa ∨
          v.mantissa = 2 * (renormalize w opposite v).mantissa + 1))

/-- Stage 5, where it answers `r`, names the representable magnitude nearest to `|Sigma| * 2^(E + c)` in
the linear domain (42_additive.md R110). That the conversion is exact is the model's choice (log 20). -/
def Obligations.ReencodeIsNearestMagnitude : Prop :=
  ∀ (c : Config.Staged) (v : ExpMant) (r k : Int), v.mantissa ≠ 0 → reencode c v = some r →
    let X : ℝ := (v.mantissa.natAbs : ℝ) / 2 ^ (c.width - 1) * (2 : ℝ) ^ (v.exponent + c.offset)
    |X - magnitude r| ≤ |X - magnitude k|

/-- Stage 5 decides every nonzero mantissa of the width: no result of a staged adder is left open by the
refinement (42_additive.md R110). The bound on the refinement is the model's (log 11). -/
def Obligations.ReencodeAlwaysDecides : Prop :=
  ∀ (c : Config.Staged) (v : ExpMant), v.mantissa ≠ 0 → v.mantissa.natAbs < 2 ^ c.width →
    (reencode c v).isSome = true

/-- The staged `ADD_CORE` is its five stages, one after the other: both operands decomposed, aligned,
summed, renormalized and re-encoded, the exponent wrapped (42_additive.md R104, R106 to R110). This is so
for every pair of its domain whose aligned sum is not 0 (what follows a sum of 0 is free, log 8), but for
the pair whose sum 42_additive.md R105 prescribes. The sign is that of the dominant operand (42_additive.md
R103), which the model imposes on the result (log 8). -/
def Obligations.StagedCoreComposesStages : Prop :=
  ∀ (c : Config.Staged) (a b : Word), c.wf = true →
    addCore (.staged c) a b = stagedCore c a b ∧
      stagedCore c 0x3FFFFFFF 0x343BFAE6 = 0x40000000 ∧
      stagedCore c 0x343BFAE6 0x3FFFFFFF = 0x40000000 ∧
      (inAddDomain a b = true → ¬(a = 0x3FFFFFFF ∧ b = 0x343BFAE6) →
        ¬(a = 0x343BFAE6 ∧ b = 0x3FFFFFFF) →
        stagedSum c a b = sumAligned (align c.width (decompose c a) (decompose c b)) ∧
        ((stagedSum c a b).mantissa ≠ 0 →
          ∃ r : Int, reencode c (renormalize c.width (!sameSign a b) (stagedSum c a b)) = some r ∧
            stagedCore c a b = mkWord (sign (dominant a b)) (wrap31 r)))

/-- Wherever stage 5 decides, the staged `ADD_CORE` delivers the representable magnitude nearest, in the
linear domain, to `|Sigma| * 2^(E + c)` of the renormalized pair, with the dominant operand's sign and the
exponent wrapped (42_additive.md R103, R104, R106 to R110). This part of StagedCoreComposesStages needs no
bound on the refinement (log 11). That the conversion is exact is the model's choice (log 20). -/
def Obligations.DecidedStagedSumsAreNearestMagnitudes : Prop :=
  ∀ (c : Config.Staged) (a b : Word) (r : Int), c.wf = true → inAddDomain a b = true →
    ¬(a = 0x3FFFFFFF ∧ b = 0x343BFAE6) → ¬(a = 0x343BFAE6 ∧ b = 0x3FFFFFFF) →
    (stagedSum c a b).mantissa ≠ 0 →
    reencode c (renormalize c.width (!sameSign a b) (stagedSum c a b)) = some r →
    let v := renormalize c.width (decide (sign a ≠ sign b))
      (sumAligned (align c.width (decompose c a) (decompose c b)))
    let X : ℝ := (v.mantissa.natAbs : ℝ) / 2 ^ (c.width - 1) * (2 : ℝ) ^ (v.exponent + c.offset)
    stagedCore c a b = mkWord (sign (dominant a b)) (wrap31 r) ∧
      ∀ k : Int, |X - magnitude r| ≤ |X - magnitude k|

/-! ## The host's side -/

/-- The pseudo-instructions: the assign forms are their operation, MOV passes its operand through the
block, NE is the negated equality, and the moves leave the bits alone (30_encoding.md R64). -/
def Obligations.PseudoInstructionsExpand : Prop :=
  ∀ (core : Word → Word → Word) (a b : Word),
    pseudoWord core .mulAssign a b = mulWord a b ∧ pseudoWord core .divAssign a b = divWord a b ∧
      pseudoWord core .addAssign a b = addWord core a b ∧
      pseudoWord core .subAssign a b = subWord core a b ∧
      pseudoWord core .fromBits a b = a ∧ pseudoWord core .toBits a b = a ∧
      pseudoWord core .default a b = 0x40000000 ∧ pseudoWord core .mov a b = a ∧
      (neFlag core a b = true ↔ a ≠ b)

/-- A word the host stores as bytes is the word it loads again, and any four bytes load the word that
stores as them, whatever the order of the bytes (20_memory.md R42; log 12). -/
def Obligations.HostBytesRoundTrip : Prop :=
  ∀ o : ByteOrder, (∀ w : Word, loadWord o (storeWord o w) = some w) ∧
    (∀ bytes : List (BitVec 8), bytes.length = 4 →
      ∃ w, loadWord o bytes = some w ∧ storeWord o w = bytes)
end

