-- ==== Sys2Proof/Laws/Operands.lean ====
section
/-!
SUPPORT. What reading and writing the fields of a word gives (00_scope.md R7, R8; 30_encoding.md R50,
R53).
-/

namespace Sys2Proof.Machine

@[simp] theorem sign_mkWord (s : Bool) (e : Field) : sign (mkWord s e) = s := by
  simp [sign, mkWord, BitVec.getElem_cons]

@[simp] theorem field_mkWord (s : Bool) (e : Field) : field (mkWord s e) = e := by
  apply BitVec.eq_of_getLsbD_eq
  intro i hi
  simp [field, mkWord, hi]

/-- A word is its sign and its field (30_encoding.md R50). -/
theorem mkWord_sign_field (w : Word) : mkWord (sign w) (field w) = w := by
  apply BitVec.eq_of_getLsbD_eq
  intro i hi
  by_cases h : i = 31
  · subst h; simp [sign, mkWord, BitVec.getElem_cons]
  · have h31 : i < 31 := by omega
    rw [mkWord, BitVec.getLsbD_cons, if_neg h]
    simp [field, h31]

/-- Two words with the same sign and field are equal (30_encoding.md R50). -/
theorem word_ext {u w : Word} (hs : sign u = sign w) (hf : field u = field w) : u = w := by
  rw [← mkWord_sign_field u, ← mkWord_sign_field w, hs, hf]

theorem mkWord_inj {s t : Bool} {e f : Field} : mkWord s e = mkWord t f ↔ s = t ∧ e = f :=
  ⟨fun h => ⟨by simpa using congrArg sign h, by simpa using congrArg field h⟩,
    fun ⟨hs, he⟩ => hs ▸ he ▸ rfl⟩

/-- `wrap31` of a field's own signed value is the field (00_scope.md R8). -/
@[simp] theorem wrap31_s31 (e : Field) : wrap31 (s31 e) = e := by
  simp [wrap31, s31]

/-- The range of a signed field (00_scope.md R8). -/
theorem s31_bounds (e : Field) : -2 ^ 30 ≤ s31 e ∧ s31 e < 2 ^ 30 := by
  have h1 := BitVec.le_toInt e
  have h2 := BitVec.toInt_lt (x := e)
  simp only [s31]
  constructor <;> simpa using by assumption

/-- Signed values tell fields apart. -/
theorem s31_inj {e f : Field} : s31 e = s31 f ↔ e = f := BitVec.toInt_inj

theorem zero_eq_mkWord : ZERO = mkWord false boundaryField := by decide

theorem nar_eq_mkWord : NAR = mkWord true boundaryField := by decide

/-- A word of the boundary magnitude is a sentinel, and its sign tells which (30_encoding.md R53). -/
theorem isBoundary_iff (w : Word) : isBoundary w = true ↔ w = ZERO ∨ w = NAR := by
  rw [zero_eq_mkWord, nar_eq_mkWord]
  constructor
  · intro h
    have hf : field w = boundaryField := by simpa [isBoundary] using h
    cases hs : sign w
    · exact .inl (word_ext (by simp [hs]) (by simp [hf]))
    · exact .inr (word_ext (by simp [hs]) (by simp [hf]))
  · rintro (rfl | rfl) <;> simp [isBoundary]

/-- A non-sentinel word's signed field leaves out the most negative value (30_encoding.md R55). -/
theorem logField_bounds {w : Word} (h : isBoundary w = false) :
    -2 ^ 30 + 1 ≤ logField w ∧ logField w ≤ 2 ^ 30 - 1 := by
  have hb := s31_bounds (field w)
  have hne : s31 (field w) ≠ -2 ^ 30 := by
    intro he
    have : s31 (field w) = s31 boundaryField := by rw [he]; decide
    simp [isBoundary, s31_inj.mp this] at h
  simp only [logField]
  omega

@[simp] theorem sign_flipSign (w : Word) : sign (flipSign w) = !sign w := by
  simp [sign, flipSign, signBit]

@[simp] theorem field_flipSign (w : Word) : field (flipSign w) = field w := by
  simp [field, flipSign, signBit]

/-- The two operands of a pair in order of dominance are the pair, in one order or the other. -/
theorem dominant_minor (a b : Word) :
    dominant a b = a ∧ minor a b = b ∧ logField b ≤ logField a ∨
      dominant a b = b ∧ minor a b = a ∧ logField a < logField b := by
  unfold dominant minor
  split
  · exact .inl ⟨rfl, rfl, by assumption⟩
  · exact .inr ⟨rfl, rfl, by omega⟩

/-- On the adder's domain the order of dominance does not depend on the order of the operands
(42_additive.md R102). -/
theorem dominant_comm {a b : Word} (h : inAddDomain a b = true) :
    dominant a b = dominant b a ∧ minor a b = minor b a := by
  unfold dominant minor
  by_cases hab : logField a = logField b
  · have hf : field a = field b := s31_inj.mp hab
    have hs : sign a = sign b := by
      by_contra hne
      apply absurd (word_ext (u := a) (w := flipSign b) (by cases h1 : sign a <;> cases h2 : sign b <;> simp_all) (by simp [hf]))
      simp only [inAddDomain, Bool.and_eq_true, bne_iff_ne] at h
      exact h.2
    rw [word_ext hs hf]
    simp
  · rcases lt_or_gt_of_ne hab with hlt | hgt
    · simp [not_le.mpr hlt, hlt.le]
    · simp [not_le.mpr hgt, le_of_lt hgt]

end Sys2Proof.Machine
end

