-- ==== Sys2Proof/Laws/AddCore.lean ====
section
/-!
SUPPORT. What the shape that every unfixed `ADD_CORE` of the model has guarantees (42_additive.md R102,
R103, R105).
-/

namespace Sys2Proof.Machine

theorem isRequiredPair_comm (a b : Word) : isRequiredPair a b = isRequiredPair b a := by
  rw [Bool.eq_iff_iff]
  simp only [isRequiredPair, Bool.or_eq_true, Bool.and_eq_true, beq_iff_eq]
  tauto

/-- The required pair's sum has the sign of its dominant operand (42_additive.md R103, R105). -/
theorem sign_dominant_of_isRequiredPair {a b : Word} (h : isRequiredPair a b = true) :
    sign (dominant a b) = sign ZERO := by
  simp only [isRequiredPair, Bool.or_eq_true, Bool.and_eq_true, beq_iff_eq] at h
  rcases h with ⟨rfl, rfl⟩ | ⟨rfl, rfl⟩ <;> decide

/-- `constrainedCore r` meets the spec's constraints, for any `r` that does not depend on the order of the
operands. -/
theorem constrainedCore_conforms {r : Word → Word → Int}
    (hr : ∀ a b, inAddDomain a b = true → r a b = r b a) : Conforms (constrainedCore r) where
  comm a b h := by
    simp only [constrainedCore, isRequiredPair_comm a b, (dominant_comm h).1, hr a b h]
  sign_dominant a b _ := by
    unfold constrainedCore
    split
    · exact (sign_dominant_of_isRequiredPair (by assumption)).symm
    · exact sign_mkWord _ _
  vector := by simp [constrainedCore, isRequiredPair]

end Sys2Proof.Machine
end

