-- ==== Sys2Proof/Laws/Interval.lean ====
section
/-!
SUPPORT. The interval arithmetic of Machine/Interval.lean encloses what it says it encloses
(42_additive.md R114).
-/

namespace Sys2Proof.Machine

/-! ## The integer square root -/

theorem isqrtLoop_eq_sqrt (n : Nat) : ∀ k x : Nat, Nat.sqrt n ≤ x → x - Nat.sqrt n < 2 ^ k →
    isqrtLoop k n x = Nat.sqrt n
  | 0, x, hx, hd => by simp [isqrtLoop]; omega
  | k + 1, x, hx, hd => by
    have hs := Nat.sqrt_le n
    have hs' := Nat.lt_succ_sqrt n
    rw [isqrtLoop]
    rcases Nat.eq_or_lt_of_le hx with rfl | hlt
    · rw [if_neg]
      rcases Nat.eq_zero_or_pos (Nat.sqrt n) with h0 | h0
      · simp [h0]
      · have hq : Nat.sqrt n ≤ n / Nat.sqrt n := (Nat.le_div_iff_mul_le h0).mpr hs
        omega
    · have hx0 : 0 < x := by omega
      have hq : n / x ≤ Nat.sqrt n := by
        apply Nat.lt_succ_iff.mp
        rw [Nat.div_lt_iff_lt_mul hx0]
        calc n < (Nat.sqrt n).succ * (Nat.sqrt n).succ := hs'
          _ ≤ (Nat.sqrt n).succ * x := Nat.mul_le_mul_left _ hlt
      rw [if_pos (by omega)]
      apply isqrtLoop_eq_sqrt n k
      · apply Nat.lt_succ_iff.mp
        rw [Nat.sqrt_lt]
        have h1 : n < x * (n / x + 1) := Nat.lt_mul_div_succ n hx0
        have h2 : x + n / x + 1 ≤ 2 * ((x + n / x) / 2 + 1) := by omega
        generalize n / x = q at h1 h2
        generalize (x + q) / 2 = y at h2
        show n < (y + 1) * (y + 1)
        nlinarith [sq_nonneg ((x : ℤ) - (q + 1)), Nat.mul_le_mul h2 h2,
          show (4 * (x * (q + 1)) : ℤ) ≤ (x + q + 1) * (x + q + 1) by
            nlinarith [sq_nonneg ((x : ℤ) - (q + 1))]]
      · have := Nat.pow_succ 2 k ▸ hd
        omega

/-- `isqrt` is the integer square root. -/
theorem isqrt_eq_sqrt (n : Nat) : isqrt n = Nat.sqrt n := by
  have hlt : n < 2 ^ (n.log2 + 1) := Nat.lt_log2_self
  have hmono : (2 : Nat) ^ (n.log2 / 2 + 1) ≤ 2 ^ (n.log2 + 1) :=
    Nat.pow_le_pow_right (by decide) (by omega)
  apply isqrtLoop_eq_sqrt
  · apply le_of_lt
    rw [Nat.sqrt_lt']
    calc n < 2 ^ (n.log2 + 1) := hlt
      _ ≤ 2 ^ ((n.log2 / 2 + 1) * 2) := Nat.pow_le_pow_right (by decide) (by omega)
      _ = (2 ^ (n.log2 / 2 + 1)) ^ 2 := Nat.pow_mul ..
  · have : (2 : Nat) ^ (n.log2 + 2) = 2 * 2 ^ (n.log2 + 1) := by ring
    have : 0 < (2 : Nat) ^ (n.log2 + 1) := by positivity
    omega

/-- The integer square roots of the bounds of a square bound the root. -/
theorem isqrt_bounds {a b : Nat} {v : ℝ} (hv : 0 ≤ v) (ha : (a : ℝ) ≤ v ^ 2)
    (hb : v ^ 2 ≤ (b : ℝ)) : (isqrt a : ℝ) ≤ v ∧ v ≤ ((isqrt b + 1 : Nat) : ℝ) := by
  rw [isqrt_eq_sqrt, isqrt_eq_sqrt]
  constructor
  · apply le_of_sq_le_sq _ hv
    calc ((Nat.sqrt a : Nat) : ℝ) ^ 2 = ((Nat.sqrt a ^ 2 : Nat) : ℝ) := by push_cast; rfl
      _ ≤ (a : ℝ) := by exact_mod_cast Nat.sqrt_le' a
      _ ≤ v ^ 2 := ha
  · apply le_of_sq_le_sq _ (by positivity)
    calc v ^ 2 ≤ (b : ℝ) := hb
      _ ≤ (((Nat.sqrt b + 1) ^ 2 : Nat) : ℝ) := by exact_mod_cast (Nat.lt_succ_sqrt' b).le
      _ = ((Nat.sqrt b + 1 : Nat) : ℝ) ^ 2 := by push_cast; rfl

/-! ## Powers of two -/

/-- `exp2Frac p n j` encloses `2^(j / 2^n)`. -/
theorem exp2Frac_encloses (p : Nat) : ∀ n j : Nat, j < 2 ^ n →
    Encloses p (exp2Frac p n j) ((2 : ℝ) ^ ((j : ℝ) / 2 ^ n))
  | 0, j, h => by
    have : j = 0 := by simpa using h
    subst this
    simp [Encloses, exp2Frac]
  | n + 1, j, h => by
    have hmod : j % 2 ^ n < 2 ^ n := Nat.mod_lt _ (by positivity)
    obtain ⟨hlo, hhi⟩ := exp2Frac_encloses p n (j % 2 ^ n) hmod
    have hsq : ((2 : ℝ) ^ ((j : ℝ) / 2 ^ (n + 1))) ^ 2 =
        (2 : ℝ) ^ ((j % 2 ^ n : Nat) / (2 : ℝ) ^ n) * 2 ^ (j / 2 ^ n) := by
      rw [← Real.rpow_natCast ((2 : ℝ) ^ ((j : ℝ) / 2 ^ (n + 1))) 2, ← Real.rpow_mul (by norm_num),
        ← Real.rpow_natCast (2 : ℝ) (j / 2 ^ n), ← Real.rpow_add (by norm_num)]
      congr 1
      have hj : (j : ℝ) = (2 : ℝ) ^ n * ((j / 2 ^ n : Nat) : ℝ) + ((j % 2 ^ n : Nat) : ℝ) := by
        exact_mod_cast (Nat.div_add_mod j (2 ^ n)).symm
      have h2 : (2 : ℝ) ^ n ≠ 0 := by positivity
      rw [hj]
      push_cast
      field_simp
      ring
    have key : ((2 : ℝ) ^ ((j : ℝ) / 2 ^ (n + 1)) * 2 ^ p) ^ 2 =
        (2 : ℝ) ^ ((j % 2 ^ n : Nat) / (2 : ℝ) ^ n) * 2 ^ p * (2 ^ (j / 2 ^ n) * 2 ^ p) := by
      rw [mul_pow, hsq]; ring
    have h3 : (0 : ℝ) ≤ 2 ^ (j / 2 ^ n) * 2 ^ p := by positivity
    apply isqrt_bounds (by positivity)
    · rw [key]
      push_cast
      rw [mul_assoc]
      exact mul_le_mul_of_nonneg_right hlo h3
    · rw [key]
      push_cast
      rw [mul_assoc (((exp2Frac p n (j % 2 ^ n)).hi : Nat) : ℝ)]
      exact mul_le_mul_of_nonneg_right hhi h3

/-- Dividing the bounds by a power of two divides what they enclose. -/
theorem div_bounds {lo hi : Nat} {v : ℝ} (q : Nat) (hlo : (lo : ℝ) ≤ v) (hhi : v ≤ (hi : ℝ)) :
    ((lo / q : Nat) : ℝ) ≤ v / q ∧ v / q ≤ ((hi / q + 1 : Nat) : ℝ) := by
  constructor
  · exact Nat.cast_div_le.trans (div_le_div_of_nonneg_right hlo (Nat.cast_nonneg q))
  · refine (div_le_div_of_nonneg_right hhi (Nat.cast_nonneg q)).trans ?_
    have := Nat.lt_floor_add_one ((hi : ℝ) / q)
    rw [Nat.floor_div_natCast, Nat.floor_natCast] at this
    push_cast
    exact this.le

/-- `exp2Neg p d` encloses `2^(-d/N)`. -/
theorem exp2Neg_encloses (p d : Nat) : Encloses p (exp2Neg p d) (magnitude (-(d : Int))) := by
  have hq : d ≤ (d + (Config.scale - 1)) / Config.scale * Config.scale ∧
      (d + (Config.scale - 1)) / Config.scale * Config.scale - d < 2 ^ Config.fracBits := by
    have : Config.scale = 8388608 := by decide
    have h2 : 2 ^ Config.fracBits = 8388608 := by decide
    rw [h2, this]
    omega
  obtain ⟨hlo, hhi⟩ := exp2Frac_encloses p Config.fracBits _ hq.2
  have h := div_bounds (2 ^ ((d + (Config.scale - 1)) / Config.scale)) hlo hhi
  have he : (2 : ℝ) ^ ((((d + (Config.scale - 1)) / Config.scale * Config.scale - d : Nat) : ℝ) /
        2 ^ Config.fracBits) * 2 ^ p /
        ((2 ^ ((d + (Config.scale - 1)) / Config.scale) : Nat) : ℝ) =
      magnitude (-(d : Int)) * 2 ^ p := by
    generalize (d + (Config.scale - 1)) / Config.scale = q at hq
    rw [magnitude, Nat.cast_sub hq.1, sub_div]
    push_cast
    rw [Real.rpow_sub (by norm_num), mul_div_cancel_right₀ _ (by positivity), neg_div,
      Real.rpow_neg (by norm_num), Real.rpow_natCast]
    field_simp
  rw [he] at h
  exact h

/-- `relativeSum` encloses the exact sum of two magnitudes, relative to the dominant one (42_additive.md
R111). -/
theorem relativeSum_encloses (same : Bool) (d p : Nat) :
    Encloses p (relativeSum same d p)
      (if same then 1 + magnitude (-(d : Int)) else 1 - magnitude (-(d : Int))) := by
  obtain ⟨hlo, hhi⟩ := exp2Neg_encloses p d
  have h1 : magnitude (-(d : Int)) ≤ 1 := by
    apply Real.rpow_le_one_of_one_le_of_nonpos (by norm_num)
    push_cast
    exact div_nonpos_of_nonpos_of_nonneg (by simp) (by positivity)
  have h2 : magnitude (-(d : Int)) * 2 ^ p ≤ 2 ^ p := by
    have : (0 : ℝ) < 2 ^ p := by positivity
    nlinarith
  cases same
  · simp only [relativeSum, Bool.false_eq_true, if_false]
    have hle : (exp2Neg p d).lo ≤ 2 ^ p := by exact_mod_cast hlo.trans h2
    constructor
    · have : ((2 ^ p - (exp2Neg p d).hi : Nat) : ℝ) ≤ max ((2 : ℝ) ^ p - (exp2Neg p d).hi) 0 := by
        rcases le_total (exp2Neg p d).hi (2 ^ p) with h | h
        · rw [Nat.cast_sub h]; push_cast; exact le_max_left _ _
        · rw [Nat.sub_eq_zero_of_le h]; simp
      refine this.trans (max_le ?_ ?_) <;> nlinarith
    · rw [Nat.cast_sub hle]; push_cast; nlinarith
  · simp only [relativeSum, if_true]
    constructor <;> (push_cast; nlinarith)

/-- `midpointRatio` encloses `2v / (1 + 2^(1/N))`. -/
theorem midpointRatio_encloses {p : Nat} {x : Interval} {v : ℝ} (h : Encloses p x v) (hv : 0 ≤ v) :
    Encloses p (midpointRatio p x) (2 * v / (1 + magnitude 1)) := by
  obtain ⟨hlo, hhi⟩ := h
  obtain ⟨glo, ghi⟩ := exp2Frac_encloses p Config.fracBits 1 (by decide)
  have hg : (2 : ℝ) ^ (((1 : Nat) : ℝ) / 2 ^ Config.fracBits) = magnitude 1 := by
    simp [magnitude]
  rw [hg] at glo ghi
  have hp : (0 : ℝ) < 2 ^ p := by positivity
  have hm : 0 < magnitude 1 := by unfold magnitude; positivity
  have e : 2 * v / (1 + magnitude 1) * 2 ^ p = 2 * (v * 2 ^ p) * 2 ^ p / (2 ^ p + magnitude 1 * 2 ^ p) := by
    field_simp
  have hvp : 0 ≤ v * 2 ^ p := by positivity
  constructor
  · rw [e]
    refine Nat.cast_div_le.trans ?_
    push_cast
    apply div_le_div₀ (by positivity) _ (by positivity) (by linarith)
    gcongr
  · rw [e]
    have hb : 2 * (v * 2 ^ p) * 2 ^ p / (2 ^ p + magnitude 1 * 2 ^ p) ≤
        ((2 * x.hi * 2 ^ p : Nat) : ℝ) / ((2 ^ p + (exp2Frac p Config.fracBits 1).lo : Nat) : ℝ) := by
      push_cast
      apply div_le_div₀ (by positivity) (by gcongr) (by positivity) (by linarith)
    refine hb.trans ?_
    have := Nat.lt_floor_add_one
      (((2 * x.hi * 2 ^ p : Nat) : ℝ) / ((2 ^ p + (exp2Frac p Config.fracBits 1).lo : Nat) : ℝ))
    rw [Nat.floor_div_natCast, Nat.floor_natCast] at this
    simp only [midpointRatio]
    push_cast at this ⊢
    exact this.le

/-! ## Repeated squaring -/

/-- A real lies within bounds with a binary exponent. -/
def EnclosesScaled (v : Scaled) (x : ℝ) : Prop :=
  (v.lo : ℝ) * (2 : ℝ) ^ v.e ≤ x ∧ x ≤ (v.hi : ℝ) * (2 : ℝ) ^ v.e

theorem squareScaled_encloses (p : Nat) {v : Scaled} {x : ℝ} (h : EnclosesScaled v x) :
    EnclosesScaled (squareScaled p v) (x ^ 2) := by
  obtain ⟨hlo, hhi⟩ := h
  have h2 : (0 : ℝ) < (2 : ℝ) ^ v.e := by positivity
  have hx : 0 ≤ x := le_trans (by positivity) hlo
  generalize hk : (v.hi * v.hi).log2 + 1 - p = k
  have hl : (v.lo * v.lo : ℝ) * ((2 : ℝ) ^ v.e * (2 : ℝ) ^ v.e) ≤ x ^ 2 := by
    nlinarith [mul_le_mul hlo hlo (by positivity) hx]
  have hh : x ^ 2 ≤ (v.hi * v.hi : ℝ) * ((2 : ℝ) ^ v.e * (2 : ℝ) ^ v.e) := by
    nlinarith [mul_le_mul hhi hhi hx (by positivity)]
  have he : (2 : ℝ) ^ (2 * v.e + (k : Int)) = (2 : ℝ) ^ v.e * (2 : ℝ) ^ v.e * 2 ^ k := by
    rw [zpow_add₀ (by norm_num), two_mul, zpow_add₀ (by norm_num), zpow_natCast]
  have b1 := (div_bounds (2 ^ k) (le_refl ((v.lo * v.lo : Nat) : ℝ)) (le_refl _)).1
  have b2 := (div_bounds (2 ^ k) (le_refl ((v.hi * v.hi : Nat) : ℝ)) (le_refl _)).2
  push_cast at b1 b2
  have hkp : (0 : ℝ) < 2 ^ k := by positivity
  simp only [EnclosesScaled, squareScaled, hk, he]
  constructor
  · refine le_trans ?_ hl
    rw [le_div_iff₀ hkp] at b1
    calc _ = ((v.lo * v.lo / 2 ^ k : Nat) : ℝ) * 2 ^ k * ((2 : ℝ) ^ v.e * (2 : ℝ) ^ v.e) := by ring
      _ ≤ _ := mul_le_mul_of_nonneg_right b1 (by positivity)
  · refine hh.trans ?_
    rw [div_le_iff₀ hkp] at b2
    calc (v.hi * v.hi : ℝ) * ((2 : ℝ) ^ v.e * (2 : ℝ) ^ v.e) ≤
          (((v.hi * v.hi / 2 ^ k : Nat) : ℝ) + 1) * 2 ^ k * ((2 : ℝ) ^ v.e * (2 : ℝ) ^ v.e) :=
        mul_le_mul_of_nonneg_right b2 (by positivity)
      _ = _ := by push_cast; ring

theorem powScaled_encloses (p : Nat) : ∀ (n : Nat) {v : Scaled} {x : ℝ}, EnclosesScaled v x →
    EnclosesScaled (powScaled p n v) (x ^ 2 ^ n)
  | 0, v, x, h => by simpa [powScaled] using h
  | n + 1, v, x, h => by
    have := powScaled_encloses p n (squareScaled_encloses p h)
    rwa [← pow_mul, ← pow_succ'] at this

/-- Where `floorLog2` answers, it is the floor of `log2`. -/
theorem floorLog2_spec {v : Scaled} {x : ℝ} {r : Int} (h : EnclosesScaled v x)
    (hr : floorLog2 v = some r) : (2 : ℝ) ^ r ≤ x ∧ x < (2 : ℝ) ^ (r + 1) := by
  unfold floorLog2 at hr
  split at hr
  case isFalse => cases hr
  case isTrue hc =>
    obtain ⟨hne, hlog⟩ := hc
    obtain rfl : v.e + (v.lo.log2 : Int) = r := by simpa using hr
    have h2 : (0 : ℝ) < (2 : ℝ) ^ v.e := by positivity
    have l1 : (2 : ℝ) ^ v.lo.log2 ≤ (v.lo : ℝ) := by exact_mod_cast Nat.log2_self_le hne
    have l2 : (v.hi : ℝ) < (2 : ℝ) ^ (v.lo.log2 + 1) := by
      rw [hlog]; exact_mod_cast Nat.lt_log2_self
    constructor
    · refine le_trans ?_ h.1
      rw [zpow_add₀ (by norm_num), zpow_natCast, mul_comm]
      exact mul_le_mul_of_nonneg_right l1 h2.le
    · refine h.2.trans_lt ?_
      rw [add_assoc, zpow_add₀ (by norm_num), mul_comm]
      have : (2 : ℝ) ^ ((v.lo.log2 : Int) + 1) = 2 ^ (v.lo.log2 + 1) := by
        exact_mod_cast zpow_natCast (2 : ℝ) (v.lo.log2 + 1)
      rw [this]
      exact mul_lt_mul_of_pos_left l2 h2

/-- Where `nearestAt` answers `r`, the `N`-th power of `2v / (1 + 2^(1/N))` lies between `2^(r-1)` and
`2^r` (42_additive.md R110). -/
theorem nearestAt_spec {p : Nat} {x : Interval} {v : ℝ} {r : Int} (h : Encloses p x v) (hv : 0 ≤ v)
    (hr : nearestAt p x = some r) :
    (2 : ℝ) ^ (r - 1) ≤ (2 * v / (1 + magnitude 1)) ^ Config.scale ∧
      (2 * v / (1 + magnitude 1)) ^ Config.scale < (2 : ℝ) ^ r := by
  obtain ⟨t, ht, rfl⟩ := Option.map_eq_some_iff.mp hr
  have hz := midpointRatio_encloses h hv
  have hs : EnclosesScaled ⟨(midpointRatio p x).lo, (midpointRatio p x).hi, -(p : Int)⟩
      (2 * v / (1 + magnitude 1)) := by
    have hp : (0 : ℝ) < 2 ^ p := by positivity
    simp only [EnclosesScaled, zpow_neg, zpow_natCast, ← div_eq_mul_inv]
    exact ⟨(div_le_iff₀ hp).mpr hz.1, (le_div_iff₀ hp).mpr hz.2⟩
  have := floorLog2_spec (powScaled_encloses p Config.fracBits hs) ht
  simpa using this

/-- Where `nearestRefined` answers, it is `nearestAt`'s answer at some precision. -/
theorem nearestRefined_spec {x : Nat → Interval} {r : Int} : ∀ k p : Nat,
    nearestRefined x k p = some r → ∃ q, nearestAt q (x q) = some r
  | 0, p, h => by simp [nearestRefined] at h
  | k + 1, p, h => by
    unfold nearestRefined at h
    split at h
    · rename_i r' hr'
      exact ⟨p, by rw [hr', h]⟩
    · exact nearestRefined_spec k (2 * p) h

/-- Where `nearestWithin` answers `r`, the `N`-th power of `2v / (1 + 2^(1/N))` lies between
`2^(r-1)` and `2^r` (42_additive.md R110, R114). -/
theorem nearestWithin_spec {k : Nat} {x : Nat → Interval} {v : ℝ} {r : Int}
    (h : ∀ p, Encloses p (x p) v) (hv : 0 ≤ v) (hr : nearestWithin k x = some r) :
    (2 : ℝ) ^ (r - 1) ≤ (2 * v / (1 + magnitude 1)) ^ Config.scale ∧
      (2 * v / (1 + magnitude 1)) ^ Config.scale < (2 : ℝ) ^ r := by
  obtain ⟨q, hq⟩ := nearestRefined_spec _ _ hr
  exact nearestAt_spec (h q) hv hq

/-- `nearestWithin_spec` for the precisions a sum of two exact magnitudes has. -/
theorem nearestExponent_spec {x : Nat → Interval} {v : ℝ} {r : Int} (h : ∀ p, Encloses p (x p) v)
    (hv : 0 ≤ v) (hr : nearestExponent x = some r) :
    (2 : ℝ) ^ (r - 1) ≤ (2 * v / (1 + magnitude 1)) ^ Config.scale ∧
      (2 * v / (1 + magnitude 1)) ^ Config.scale < (2 : ℝ) ^ r := nearestWithin_spec h hv hr

end Sys2Proof.Machine
end

