-- ==== Sys2Proof/Laws/State.lean ====
section
/-!
SUPPORT. What each update of State leaves in each field: one lemma a field and an update, so that no
proof unfolds a record update.
-/

namespace Sys2Proof.Machine

variable (s : State)

/-! ## settleOutputs -/

@[simp] theorem settleOutputs_design (o : Output) : (settleOutputs o s).design = s.design := rfl
@[simp] theorem settleOutputs_op (o : Output) : (settleOutputs o s).op = s.op := rfl
@[simp] theorem settleOutputs_a (o : Output) : (settleOutputs o s).a = s.a := rfl
@[simp] theorem settleOutputs_b (o : Output) : (settleOutputs o s).b = s.b := rfl
@[simp] theorem settleOutputs_rst (o : Output) : (settleOutputs o s).rst = s.rst := rfl
@[simp] theorem settleOutputs_clk (o : Output) : (settleOutputs o s).clk = s.clk := rfl
@[simp] theorem settleOutputs_windowMet (o : Output) : (settleOutputs o s).windowMet = s.windowMet := rfl
@[simp] theorem settleOutputs_y (o : Output) : (settleOutputs o s).y = o.y := rfl
@[simp] theorem settleOutputs_eq (o : Output) : (settleOutputs o s).eq = o.eq := rfl
@[simp] theorem settleOutputs_settled (o : Output) : (settleOutputs o s).settled = true := rfl
@[simp] theorem settleOutputs_yQ (o : Output) : (settleOutputs o s).yQ = s.yQ := rfl
@[simp] theorem settleOutputs_eqQ (o : Output) : (settleOutputs o s).eqQ = s.eqQ := rfl
@[simp] theorem settleOutputs_qDefined (o : Output) : (settleOutputs o s).qDefined = s.qDefined := rfl
@[simp] theorem settleOutputs_freeIndex (o : Output) : (settleOutputs o s).freeIndex = s.freeIndex := rfl

/-! ## captureOutputs -/

@[simp] theorem captureOutputs_design (o : Output) : (captureOutputs o s).design = s.design := rfl
@[simp] theorem captureOutputs_op (o : Output) : (captureOutputs o s).op = s.op := rfl
@[simp] theorem captureOutputs_a (o : Output) : (captureOutputs o s).a = s.a := rfl
@[simp] theorem captureOutputs_b (o : Output) : (captureOutputs o s).b = s.b := rfl
@[simp] theorem captureOutputs_rst (o : Output) : (captureOutputs o s).rst = s.rst := rfl
@[simp] theorem captureOutputs_clk (o : Output) : (captureOutputs o s).clk = s.clk := rfl
@[simp] theorem captureOutputs_windowMet (o : Output) : (captureOutputs o s).windowMet = s.windowMet := rfl
@[simp] theorem captureOutputs_y (o : Output) : (captureOutputs o s).y = s.y := rfl
@[simp] theorem captureOutputs_eq (o : Output) : (captureOutputs o s).eq = s.eq := rfl
@[simp] theorem captureOutputs_settled (o : Output) : (captureOutputs o s).settled = s.settled := rfl
@[simp] theorem captureOutputs_yQ (o : Output) : (captureOutputs o s).yQ = o.y := rfl
@[simp] theorem captureOutputs_eqQ (o : Output) : (captureOutputs o s).eqQ = o.eq := rfl
@[simp] theorem captureOutputs_qDefined (o : Output) : (captureOutputs o s).qDefined = true := rfl
@[simp] theorem captureOutputs_freeIndex (o : Output) : (captureOutputs o s).freeIndex = s.freeIndex := rfl

/-! ## loadReset -/

@[simp] theorem loadReset_design : (loadReset s).design = s.design := rfl
@[simp] theorem loadReset_op : (loadReset s).op = s.op := rfl
@[simp] theorem loadReset_a : (loadReset s).a = s.a := rfl
@[simp] theorem loadReset_b : (loadReset s).b = s.b := rfl
@[simp] theorem loadReset_rst : (loadReset s).rst = s.rst := rfl
@[simp] theorem loadReset_clk : (loadReset s).clk = s.clk := rfl
@[simp] theorem loadReset_windowMet : (loadReset s).windowMet = s.windowMet := rfl
@[simp] theorem loadReset_y : (loadReset s).y = s.y := rfl
@[simp] theorem loadReset_eq : (loadReset s).eq = s.eq := rfl
@[simp] theorem loadReset_settled : (loadReset s).settled = s.settled := rfl
@[simp] theorem loadReset_yQ : (loadReset s).yQ = ZERO := rfl
@[simp] theorem loadReset_eqQ : (loadReset s).eqQ = false := rfl
@[simp] theorem loadReset_qDefined : (loadReset s).qDefined = true := rfl
@[simp] theorem loadReset_freeIndex : (loadReset s).freeIndex = s.freeIndex := rfl

/-! ## captureUnknown -/

@[simp] theorem captureUnknown_design : (captureUnknown s).design = s.design := rfl
@[simp] theorem captureUnknown_op : (captureUnknown s).op = s.op := rfl
@[simp] theorem captureUnknown_a : (captureUnknown s).a = s.a := rfl
@[simp] theorem captureUnknown_b : (captureUnknown s).b = s.b := rfl
@[simp] theorem captureUnknown_rst : (captureUnknown s).rst = s.rst := rfl
@[simp] theorem captureUnknown_clk : (captureUnknown s).clk = s.clk := rfl
@[simp] theorem captureUnknown_windowMet : (captureUnknown s).windowMet = s.windowMet := rfl
@[simp] theorem captureUnknown_y : (captureUnknown s).y = s.y := rfl
@[simp] theorem captureUnknown_eq : (captureUnknown s).eq = s.eq := rfl
@[simp] theorem captureUnknown_settled : (captureUnknown s).settled = s.settled := rfl
@[simp] theorem captureUnknown_yQ : (captureUnknown s).yQ = Config.violatedY s.freeIndex := rfl
@[simp] theorem captureUnknown_eqQ : (captureUnknown s).eqQ = Config.violatedEq s.freeIndex := rfl
@[simp] theorem captureUnknown_qDefined : (captureUnknown s).qDefined = true := rfl
@[simp] theorem captureUnknown_freeIndex : (captureUnknown s).freeIndex = s.freeIndex + 1 := rfl

/-! ## driveInputs -/

@[simp] theorem driveInputs_design (op : OpSelect) (a b : Word) : (driveInputs op a b s).design = s.design := rfl
@[simp] theorem driveInputs_op (op : OpSelect) (a b : Word) : (driveInputs op a b s).op = op := rfl
@[simp] theorem driveInputs_a (op : OpSelect) (a b : Word) : (driveInputs op a b s).a = a := rfl
@[simp] theorem driveInputs_b (op : OpSelect) (a b : Word) : (driveInputs op a b s).b = b := rfl
@[simp] theorem driveInputs_rst (op : OpSelect) (a b : Word) : (driveInputs op a b s).rst = s.rst := rfl
@[simp] theorem driveInputs_clk (op : OpSelect) (a b : Word) : (driveInputs op a b s).clk = s.clk := rfl
@[simp] theorem driveInputs_windowMet (op : OpSelect) (a b : Word) : (driveInputs op a b s).windowMet = s.windowMet := rfl
@[simp] theorem driveInputs_y (op : OpSelect) (a b : Word) : (driveInputs op a b s).y = s.y := rfl
@[simp] theorem driveInputs_eq (op : OpSelect) (a b : Word) : (driveInputs op a b s).eq = s.eq := rfl
@[simp] theorem driveInputs_settled (op : OpSelect) (a b : Word) : (driveInputs op a b s).settled = false := rfl
@[simp] theorem driveInputs_yQ (op : OpSelect) (a b : Word) : (driveInputs op a b s).yQ = s.yQ := rfl
@[simp] theorem driveInputs_eqQ (op : OpSelect) (a b : Word) : (driveInputs op a b s).eqQ = s.eqQ := rfl
@[simp] theorem driveInputs_qDefined (op : OpSelect) (a b : Word) : (driveInputs op a b s).qDefined = s.qDefined := rfl
@[simp] theorem driveInputs_freeIndex (op : OpSelect) (a b : Word) : (driveInputs op a b s).freeIndex = s.freeIndex := rfl

/-! ## driveReset -/

@[simp] theorem driveReset_design (r : Bool) : (driveReset r s).design = s.design := rfl
@[simp] theorem driveReset_op (r : Bool) : (driveReset r s).op = s.op := rfl
@[simp] theorem driveReset_a (r : Bool) : (driveReset r s).a = s.a := rfl
@[simp] theorem driveReset_b (r : Bool) : (driveReset r s).b = s.b := rfl
@[simp] theorem driveReset_rst (r : Bool) : (driveReset r s).rst = r := rfl
@[simp] theorem driveReset_clk (r : Bool) : (driveReset r s).clk = s.clk := rfl
@[simp] theorem driveReset_windowMet (r : Bool) : (driveReset r s).windowMet = s.windowMet := rfl
@[simp] theorem driveReset_y (r : Bool) : (driveReset r s).y = s.y := rfl
@[simp] theorem driveReset_eq (r : Bool) : (driveReset r s).eq = s.eq := rfl
@[simp] theorem driveReset_settled (r : Bool) : (driveReset r s).settled = s.settled := rfl
@[simp] theorem driveReset_yQ (r : Bool) : (driveReset r s).yQ = s.yQ := rfl
@[simp] theorem driveReset_eqQ (r : Bool) : (driveReset r s).eqQ = s.eqQ := rfl
@[simp] theorem driveReset_qDefined (r : Bool) : (driveReset r s).qDefined = s.qDefined := rfl
@[simp] theorem driveReset_freeIndex (r : Bool) : (driveReset r s).freeIndex = s.freeIndex := rfl

/-! ## driveClock -/

@[simp] theorem driveClock_design (c : Clk) (w : Bool) : (driveClock c w s).design = s.design := rfl
@[simp] theorem driveClock_op (c : Clk) (w : Bool) : (driveClock c w s).op = s.op := rfl
@[simp] theorem driveClock_a (c : Clk) (w : Bool) : (driveClock c w s).a = s.a := rfl
@[simp] theorem driveClock_b (c : Clk) (w : Bool) : (driveClock c w s).b = s.b := rfl
@[simp] theorem driveClock_rst (c : Clk) (w : Bool) : (driveClock c w s).rst = s.rst := rfl
@[simp] theorem driveClock_clk (c : Clk) (w : Bool) : (driveClock c w s).clk = c := rfl
@[simp] theorem driveClock_windowMet (c : Clk) (w : Bool) : (driveClock c w s).windowMet = w := rfl
@[simp] theorem driveClock_y (c : Clk) (w : Bool) : (driveClock c w s).y = s.y := rfl
@[simp] theorem driveClock_eq (c : Clk) (w : Bool) : (driveClock c w s).eq = s.eq := rfl
@[simp] theorem driveClock_settled (c : Clk) (w : Bool) : (driveClock c w s).settled = s.settled := rfl
@[simp] theorem driveClock_yQ (c : Clk) (w : Bool) : (driveClock c w s).yQ = s.yQ := rfl
@[simp] theorem driveClock_eqQ (c : Clk) (w : Bool) : (driveClock c w s).eqQ = s.eqQ := rfl
@[simp] theorem driveClock_qDefined (c : Clk) (w : Bool) : (driveClock c w s).qDefined = s.qDefined := rfl
@[simp] theorem driveClock_freeIndex (c : Clk) (w : Bool) : (driveClock c w s).freeIndex = s.freeIndex := rfl

/-! ## losePower -/

@[simp] theorem losePower_design : (losePower s).design = s.design := rfl
@[simp] theorem losePower_op : (losePower s).op = s.op := rfl
@[simp] theorem losePower_a : (losePower s).a = s.a := rfl
@[simp] theorem losePower_b : (losePower s).b = s.b := rfl
@[simp] theorem losePower_rst : (losePower s).rst = s.rst := rfl
@[simp] theorem losePower_clk : (losePower s).clk = s.clk := rfl
@[simp] theorem losePower_windowMet : (losePower s).windowMet = s.windowMet := rfl
@[simp] theorem losePower_y : (losePower s).y = s.y := rfl
@[simp] theorem losePower_eq : (losePower s).eq = s.eq := rfl
@[simp] theorem losePower_settled : (losePower s).settled = false := rfl
@[simp] theorem losePower_yQ : (losePower s).yQ = Config.powerUpY s.freeIndex := rfl
@[simp] theorem losePower_eqQ : (losePower s).eqQ = Config.powerUpEq s.freeIndex := rfl
@[simp] theorem losePower_qDefined : (losePower s).qDefined = false := rfl
@[simp] theorem losePower_freeIndex : (losePower s).freeIndex = s.freeIndex + 1 := rfl

end Sys2Proof.Machine
end

