-- ==== Sys2Proof/Laws/Ops.lean ====
section
/-!
SUPPORT. What each shared operation on State can do, said once.
-/

namespace Sys2Proof.Machine

theorem deliver_of_comb (o : Output) {s : State} (h : s.design.outReg = false) :
    deliver o s = settleOutputs o s := by simp [deliver, h]

theorem deliver_of_reg (o : Output) {s : State} (h : s.design.outReg = true) :
    deliver o s = captureOutputs o s := by simp [deliver, h]

/-- A delivery is one of two updates, by the design (10_state.md R20, R26). -/
theorem deliver_cases (o : Output) (s : State) :
    s.design.outReg = false ∧ deliver o s = settleOutputs o s ∨
      s.design.outReg = true ∧ deliver o s = captureOutputs o s := by
  cases h : s.design.outReg
  · exact .inl ⟨rfl, deliver_of_comb o h⟩
  · exact .inr ⟨rfl, deliver_of_reg o h⟩

@[simp] theorem deliver_design (o : Output) (s : State) : (deliver o s).design = s.design := by
  rcases deliver_cases o s with ⟨-, h⟩ | ⟨-, h⟩ <;> simp [h]

@[simp] theorem deliver_op (o : Output) (s : State) : (deliver o s).op = s.op := by
  rcases deliver_cases o s with ⟨-, h⟩ | ⟨-, h⟩ <;> simp [h]

@[simp] theorem deliver_a (o : Output) (s : State) : (deliver o s).a = s.a := by
  rcases deliver_cases o s with ⟨-, h⟩ | ⟨-, h⟩ <;> simp [h]

@[simp] theorem deliver_b (o : Output) (s : State) : (deliver o s).b = s.b := by
  rcases deliver_cases o s with ⟨-, h⟩ | ⟨-, h⟩ <;> simp [h]

@[simp] theorem deliver_rst (o : Output) (s : State) : (deliver o s).rst = s.rst := by
  rcases deliver_cases o s with ⟨-, h⟩ | ⟨-, h⟩ <;> simp [h]

@[simp] theorem deliver_clk (o : Output) (s : State) : (deliver o s).clk = s.clk := by
  rcases deliver_cases o s with ⟨-, h⟩ | ⟨-, h⟩ <;> simp [h]

@[simp] theorem deliver_windowMet (o : Output) (s : State) :
    (deliver o s).windowMet = s.windowMet := by
  rcases deliver_cases o s with ⟨-, h⟩ | ⟨-, h⟩ <;> simp [h]

@[simp] theorem deliver_freeIndex (o : Output) (s : State) :
    (deliver o s).freeIndex = s.freeIndex := by
  rcases deliver_cases o s with ⟨-, h⟩ | ⟨-, h⟩ <;> simp [h]

/-- The inputs decide what a step does (10_state.md R26, R27; 70_reset_and_hazards.md R161, R164). -/
theorem edgeAction_cases (s : State) :
    s.design.outReg = false ∧ edgeAction s = .evaluate ∨
      s.design.outReg = true ∧ s.clk = .quiet ∧ edgeAction s = .hold ∨
      s.design.outReg = true ∧ s.clk = .rises ∧ s.windowMet = false ∧
        edgeAction s = .captureUnknown ∨
      s.design.outReg = true ∧ s.clk = .rises ∧ s.windowMet = true ∧ s.rst = true ∧
        edgeAction s = .loadReset ∨
      s.design.outReg = true ∧ s.clk = .rises ∧ s.windowMet = true ∧ s.rst = false ∧
        edgeAction s = .evaluate := by
  unfold edgeAction
  cases s.design.outReg <;> cases s.clk <;> cases s.windowMet <;> cases s.rst <;> simp

/-- A sample of the outputs: the registers, a fault while they hold no value, the settled wires, or a
free value (10_state.md R26, R28; 70_reset_and_hazards.md R163). -/
theorem sample_cases (s : State) :
    s.design.outReg = true ∧ s.qDefined = true ∧ sample s = .next (⟨s.yQ, s.eqQ⟩, s) ∨
      s.design.outReg = true ∧ s.qDefined = false ∧ sample s = .fault .outputHasNoValue ∨
      s.design.outReg = false ∧ s.settled = true ∧ sample s = .next (⟨s.y, s.eq⟩, s) ∨
      s.design.outReg = false ∧ s.settled = false ∧ sample s = .next (sampleUnsettled s) := by
  unfold sample
  cases s.design.outReg <;> cases s.qDefined <;> cases s.settled <;> simp

@[simp] theorem operandA_eq (s : State) : operandA s = s.a := rfl

@[simp] theorem operandB_eq (s : State) : operandB s = s.b := rfl

end Sys2Proof.Machine
end

