-- ==== Sys2Proof/Laws/PerInstr.lean ====
section
/-!
SUPPORT. Statements made for each instruction, one lemma a constructor (LAWS.json).
-/

namespace Sys2Proof.Laws.SelectOfOp

/-- An operation is well formed, its select is not the reserved one, and the table word that is its
select decodes to it (30_encoding.md R58, R60). -/
def Statement (i : Instr) : Prop :=
  i.wf = true ∧ encode i ≠ reservedSelect ∧ decodeTableWord 8 (encode i).toNat = some i

theorem mul : Statement .mul := ⟨rfl, by decide, rfl⟩
theorem div : Statement .div := ⟨rfl, by decide, rfl⟩
theorem add : Statement .add := ⟨rfl, by decide, rfl⟩
theorem sub : Statement .sub := ⟨rfl, by decide, rfl⟩
theorem sqrt : Statement .sqrt := ⟨rfl, by decide, rfl⟩
theorem neg : Statement .neg := ⟨rfl, by decide, rfl⟩
theorem eq : Statement .eq := ⟨rfl, by decide, rfl⟩

end Sys2Proof.Laws.SelectOfOp
end

