-- ==== Sys2Proof/Laws/Reals.lean ====
section
/-!
SUPPORT. The magnitudes of the words as real numbers (30_encoding.md R51, R56), and the algebra of the
`N`-th root of 2 that 42_additive.md R112 and R113 rest on.
-/

namespace Sys2Proof.Machine

open Polynomial

/-! ## Magnitudes -/

theorem scale_pos : (0 : ℝ) < (Config.scale : ℝ) := by positivity

theorem magnitude_pos (x : Int) : 0 < magnitude x := by unfold magnitude; positivity

@[simp] theorem magnitude_zero : magnitude 0 = 1 := by simp [magnitude]

/-- Adding fields multiplies magnitudes (41_multiplicative.md R80). -/
theorem magnitude_add (x z : Int) : magnitude (x + z) = magnitude x * magnitude z := by
  rw [magnitude, magnitude, magnitude, ← Real.rpow_add (by norm_num)]
  push_cast
  rw [add_div]

/-- A field of `N` doubles (42_additive.md R113). -/
theorem magnitude_scale : magnitude (Config.scale : Int) = 2 := by
  have h : ((Config.scale : Int) : ℝ) = (Config.scale : ℝ) := by push_cast; rfl
  rw [magnitude, h, div_self scale_pos.ne', Real.rpow_one]

/-- The `N`-th power of a magnitude is a power of two. -/
theorem magnitude_pow_scale (x : Int) : magnitude x ^ Config.scale = (2 : ℝ) ^ x := by
  rw [magnitude, ← Real.rpow_natCast, ← Real.rpow_mul (by norm_num), div_mul_cancel₀ _ scale_pos.ne',
    Real.rpow_intCast]

/-- Magnitudes increase strictly with the field (30_encoding.md R56). -/
theorem magnitude_strictMono : StrictMono magnitude := by
  intro x z h
  apply Real.rpow_lt_rpow_of_exponent_lt (by norm_num)
  exact div_lt_div_of_pos_right (by exact_mod_cast h) scale_pos

/-- The magnitude of a word does not depend on its sign (30_encoding.md R51). -/
theorem abs_signedMagnitude (w : Word) : |signedMagnitude w| = magnitude (logField w) := by
  unfold signedMagnitude
  cases sign w <;> simp [abs_of_pos, magnitude_pos]

/-- The scaled logarithm of a magnitude is its field (30_encoding.md R51). -/
theorem scale_mul_logb_magnitude (x : Int) : Config.scale * Real.logb 2 (magnitude x) = x := by
  rw [magnitude, Real.logb_rpow (by norm_num) (by norm_num), mul_div_cancel₀ _ scale_pos.ne']

/-! ## The root of two -/

/-- `x^n - 2` is irreducible over the rationals: Eisenstein's criterion at the prime 2 (42_additive.md
R112, 93_implementation_defined.md G1). -/
theorem irreducible_X_pow_sub_two {n : ℕ} (hn : 0 < n) : Irreducible (X ^ n - C 2 : ℚ[X]) := by
  have hmonic : (X ^ n - C 2 : ℤ[X]).Monic := monic_X_pow_sub_C 2 hn.ne'
  have hdeg : (X ^ n - C 2 : ℤ[X]).natDegree = n := natDegree_X_pow_sub_C
  have hirr : Irreducible (X ^ n - C 2 : ℤ[X]) := by
    have hp : Ideal.IsPrime (Ideal.span ({2} : Set ℤ)) :=
      (Ideal.span_singleton_prime (by norm_num)).mpr Int.prime_two
    refine IsEisensteinAt.irreducible (𝓟 := Ideal.span {2}) ⟨?_, ?_, ?_⟩ hp hmonic.isPrimitive
      (by rw [hdeg]; exact hn)
    · rw [hmonic.leadingCoeff, Ideal.mem_span_singleton]
      norm_num
    · intro i hi
      rw [hdeg] at hi
      rw [Ideal.mem_span_singleton, coeff_sub, coeff_X_pow, if_neg hi.ne, coeff_C]
      split <;> norm_num
    · rw [Ideal.span_singleton_pow, Ideal.mem_span_singleton, coeff_sub, coeff_X_pow,
        if_neg hn.ne, coeff_C_zero]
      norm_num
  have hmap : (X ^ n - C 2 : ℤ[X]).map (algebraMap ℤ ℚ) = X ^ n - C 2 := by
    simp [← map_ofNat (C : ℚ →+* ℚ[X]) 2]
  rw [← hmap]
  exact (hmonic.irreducible_iff_irreducible_map_fraction_map (K := ℚ)).mp hirr

/-- The powers below the `n`-th of an `n`-th root of 2 are linearly independent over the rationals
(42_additive.md R112, R113; 93_implementation_defined.md G1, G2). -/
theorem linearIndependent_root_pow {n : ℕ} (hn : 0 < n) {θ : ℝ} (hθ : θ ^ n = 2) :
    LinearIndependent ℚ (fun i : Fin n => θ ^ (i : ℕ)) := by
  have hmin : minpoly ℚ θ = X ^ n - C 2 := by
    refine (minpoly.eq_of_irreducible_of_monic (irreducible_X_pow_sub_two hn) ?_
      (monic_X_pow_sub_C 2 hn.ne')).symm
    simp [hθ]
  have hdeg : (minpoly ℚ θ).natDegree = n := by rw [hmin]; exact natDegree_X_pow_sub_C
  exact (linearIndependent_equiv' (finCongr hdeg) (by ext i; simp)).mp (linearIndependent_pow θ)

/-- The magnitudes of the fields `0` to `N - 1` are linearly independent over the rationals
(42_additive.md R112). -/
theorem linearIndependent_magnitude :
    LinearIndependent ℚ (fun i : Fin Config.scale => magnitude 1 ^ (i : ℕ)) :=
  linearIndependent_root_pow (Nat.pow_pos (by decide))
    (by rw [magnitude_pow_scale]; norm_num)

end Sys2Proof.Machine
end

