-- ==== Sys2Proof/Laws/StagedAdder.lean ====
section
/-!
SUPPORT. The antilog of stage 1 is the exact one up to a unit in the last place (42_additive.md R106), and
the shift of stage 2 does not grow a mantissa (42_additive.md R107, R108).
-/

namespace Sys2Proof.Machine

/-- `floorExp2 n t` is the floor of `2^(t / 2^n)`, said in whole numbers. -/
theorem floorExp2_spec (t : Nat) : ∀ n : Nat,
    floorExp2 n t ^ 2 ^ n ≤ 2 ^ t ∧ 2 ^ t < (floorExp2 n t + 1) ^ 2 ^ n
  | 0 => by simp [floorExp2]
  | n + 1 => by
    obtain ⟨hlo, hhi⟩ := floorExp2_spec t n
    have h1 := Nat.sqrt_le' (floorExp2 n t)
    have h2 := Nat.lt_succ_sqrt' (floorExp2 n t)
    simp only [floorExp2, isqrt_eq_sqrt, pow_succ' 2 n, pow_mul]
    exact ⟨(Nat.pow_le_pow_left h1 _).trans hlo, hhi.trans_le (Nat.pow_le_pow_left h2 _)⟩

/-- `floorExp2 n t` is the floor of `2^(t / 2^n)`. -/
theorem floorExp2_eq_floor (n t : Nat) : floorExp2 n t = ⌊(2 : ℝ) ^ ((t : ℝ) / 2 ^ n)⌋₊ := by
  obtain ⟨hlo, hhi⟩ := floorExp2_spec t n
  have hpow : ((2 : ℝ) ^ ((t : ℝ) / 2 ^ n)) ^ 2 ^ n = 2 ^ t := by
    rw [← Real.rpow_natCast, ← Real.rpow_mul (by norm_num)]
    push_cast
    rw [div_mul_cancel₀ _ (by positivity), Real.rpow_natCast]
  symm
  rw [Nat.floor_eq_iff (by positivity)]
  constructor
  · refine le_of_pow_le_pow_left₀ (n := 2 ^ n) (by positivity) (by positivity) ?_
    rw [hpow]
    exact_mod_cast hlo
  · refine lt_of_pow_lt_pow_left₀ (2 ^ n) (by positivity) ?_
    rw [hpow]
    exact_mod_cast hhi

/-- `antilogFloor t` is the floor of `2^(t/N)`. -/
theorem antilogFloor_eq_floor (t : Nat) : antilogFloor t = ⌊magnitude t⌋₊ := by
  have hexact := floorExp2_eq_floor Config.fracBits t
  have hm : magnitude t = (2 : ℝ) ^ ((t : ℝ) / 2 ^ Config.fracBits) := by simp [magnitude]
  rw [← hm] at hexact
  have hj : t % Config.scale < 2 ^ Config.fracBits := Nat.mod_lt _ (by positivity)
  obtain ⟨hlo, hhi⟩ := exp2Frac_encloses (t / Config.scale + 64) Config.fracBits _ hj
  have he : (2 : ℝ) ^ (((t % Config.scale : Nat) : ℝ) / 2 ^ Config.fracBits) *
      2 ^ (t / Config.scale + 64) = magnitude t * ((2 ^ 64 : Nat) : ℝ) := by
    have ht : (t : ℝ) = (2 : ℝ) ^ Config.fracBits * ((t / Config.scale : Nat) : ℝ) +
        ((t % Config.scale : Nat) : ℝ) := by
      exact_mod_cast (Nat.div_add_mod t Config.scale).symm
    rw [hm, ht, add_div, mul_div_cancel_left₀ _ (by positivity), Real.rpow_add (by norm_num),
      Real.rpow_natCast, pow_add]
    push_cast
    ring
  rw [he] at hlo hhi
  simp only [antilogFloor]
  split
  · rename_i heq
    have h64 : (0 : ℝ) < ((2 ^ 64 : Nat) : ℝ) := by positivity
    have h0 : 0 ≤ magnitude t := by unfold magnitude; positivity
    apply le_antisymm
    · rw [Nat.le_floor_iff h0]
      exact Nat.cast_div_le.trans ((div_le_iff₀ h64).mpr hlo)
    · have h := Nat.floor_mono ((le_div_iff₀ h64).mpr hhi)
      rwa [Nat.floor_div_natCast, Nat.floor_natCast, ← heq] at h
  · exact hexact

/-- A power `2^(t/N)` that is a whole number has a whole exponent. -/
theorem scale_dvd_of_magnitude_eq {t n : Nat} (h : (n : ℝ) = magnitude t) : Config.scale ∣ t := by
  have hpow : n ^ Config.scale = 2 ^ t := by
    have hs : ((Config.scale : Nat) : ℝ) ≠ 0 := by positivity
    have : (n : ℝ) ^ Config.scale = 2 ^ t := by
      rw [h, magnitude, ← Real.rpow_natCast, ← Real.rpow_mul (by norm_num), Int.cast_natCast,
        div_mul_cancel₀ _ hs, Real.rpow_natCast]
    exact_mod_cast this
  have hn : n ∣ 2 ^ t := hpow ▸ dvd_pow_self n (by positivity)
  obtain ⟨k, -, rfl⟩ := (Nat.dvd_prime_pow Nat.prime_two).mp hn
  rw [← pow_mul] at hpow
  exact ⟨k, by rw [← Nat.pow_right_injective le_rfl hpow, mul_comm]⟩

/-- The mantissa magnitude of stage 1 is within one unit in the last place of the exact antilog, and is
the exact one where that is representable (42_additive.md R106). -/
theorem mantissaMagnitude_error (c : Config.Staged) (s : Bool) (fraction : Int) :
    |(mantissaMagnitude c s fraction : ℝ) - magnitude (mantissaLog c fraction)| < 1 ∧
      (0 ≤ mantissaLog c fraction → mantissaLog c fraction % Config.scale = 0 →
        (mantissaMagnitude c s fraction : ℝ) = magnitude (mantissaLog c fraction)) := by
  generalize ht : mantissaLog c fraction = t
  have h0 : 0 < magnitude t := by unfold magnitude; positivity
  have hn : (((if 0 ≤ t then antilogFloor t.toNat else 0 : Nat)) : ℝ) ≤ magnitude t ∧
      magnitude t < ((if 0 ≤ t then antilogFloor t.toNat else 0 : Nat) : ℝ) + 1 := by
    split
    · rename_i h
      rw [antilogFloor_eq_floor, Int.toNat_of_nonneg h]
      exact ⟨Nat.floor_le h0.le, Nat.lt_floor_add_one _⟩
    · rename_i h
      refine ⟨by simpa using h0.le, ?_⟩
      have : magnitude t < 1 := by
        apply Real.rpow_lt_one_of_one_lt_of_neg (by norm_num)
        exact div_neg_of_neg_of_pos (by exact_mod_cast not_le.mp h) (by positivity)
      simpa using this
  have hexact : 0 ≤ t → t % Config.scale = 0 →
      ((if 0 ≤ t then antilogFloor t.toNat else 0 : Nat) : ℝ) = magnitude t := by
    intro h1 h2
    obtain ⟨q, rfl⟩ := Int.dvd_of_emod_eq_zero h2
    have hq : 0 ≤ q := by
      have : (0 : Int) < Config.scale := by decide
      exact nonneg_of_mul_nonneg_right h1 this
    lift q to Nat using hq
    have hm : magnitude ((Config.scale : Int) * q) = ((2 ^ q : Nat) : ℝ) := by
      have : ((Config.scale : Nat) : ℝ) ≠ 0 := by positivity
      simp only [magnitude, Int.cast_mul, Int.cast_natCast]
      rw [mul_div_cancel_left₀ _ this, Real.rpow_natCast]
      push_cast
      rfl
    rw [if_pos h1, antilogFloor_eq_floor, Int.toNat_of_nonneg h1, hm, Nat.floor_natCast]
  have hneg : t < 0 → (if 0 ≤ t then antilogFloor t.toNat else 0 : Nat) = 0 :=
    fun h => if_neg (not_le.mpr h)
  unfold mantissaMagnitude
  simp only [ht]
  generalize (if 0 ≤ t then antilogFloor t.toNat else 0 : Nat) = n at hn hexact hneg
  refine ⟨?_, fun h1 h2 => by rw [if_pos ⟨h1, h2⟩]; exact hexact h1 h2⟩
  rw [abs_lt]
  split
  · constructor <;> linarith
  · rename_i hne
    split
    · push_cast
      rcases eq_or_lt_of_le hn.1 with h | h
      · exfalso
        rcases le_or_gt 0 t with h1 | h1
        · lift t to Nat using h1
          exact hne ⟨by simp, by exact_mod_cast Nat.mod_eq_zero_of_dvd (scale_dvd_of_magnitude_eq h)⟩
        · exact absurd (h.trans_gt h0) (by simp [hneg h1])
      · constructor <;> linarith
    · constructor <;> linarith

/-- A shifted mantissa is no larger than the mantissa (42_additive.md R107). -/
theorem natAbs_shiftMantissa_le (w : Nat) (m : Int) (n : Nat) :
    (shiftMantissa w m n).natAbs ≤ m.natAbs := by
  unfold shiftMantissa
  split
  · simp
  · have hp : (0 : Int) < 2 ^ n := by positivity
    rw [Int.shiftRight_eq_div_pow]
    push_cast
    have hm : m / 2 ^ n * 2 ^ n ≤ m := Int.ediv_mul_le _ hp.ne'
    have hn : m < (m / 2 ^ n + 1) * 2 ^ n := Int.lt_ediv_add_one_mul_self m hp
    generalize m / 2 ^ n = q at hm hn
    generalize (2 : Int) ^ n = d at hp hm hn
    rcases le_or_gt 0 q with h | h
    · have : q ≤ m := by nlinarith
      omega
    · have : m ≤ q ∨ m < 0 := by right; nlinarith
      have : m ≤ q := by nlinarith
      omega

end Sys2Proof.Machine
end

