-- ==== Sys2Proof/Laws/Step.lean ====
section
/-!
SUPPORT. What `exec` and `step` can do, said once; later proofs cite these and unfold neither.
-/

namespace Sys2Proof.Machine

/-- `exec` delivers the outputs of `evalInstr` (10_state.md R20). -/
theorem exec_eq_deliver (i : Instr) (s : State) :
    exec i s = .next (deliver (evalInstr (addCore s.design.addCore) i s.a s.b) s) := by
  cases i <;> rfl

/-- The selected operation delivers the outputs of `eval` (10_state.md R20, 30_encoding.md R60, R61). -/
theorem runSelected_eq_deliver (s : State) :
    runSelected s = .next (deliver (evalPorts s) s) := by
  unfold runSelected evalPorts eval
  cases decode s.op with
  | ok i => exact exec_eq_deliver i s
  | error e => cases e; rfl

/-- Everything a step can do (10_state.md R20, R26, R27; 70_reset_and_hazards.md R164). -/
theorem step_cases {s t : State} (h : step s = .next t) :
    edgeAction s = .evaluate ∧ t = deliver (evalPorts s) s ∨
      edgeAction s = .hold ∧ t = s ∨
      edgeAction s = .loadReset ∧ t = loadReset s ∨
      edgeAction s = .captureUnknown ∧ t = captureUnknown s := by
  unfold step at h
  cases he : edgeAction s <;> simp only [he, runSelected_eq_deliver, Host.Outcome.next.injEq] at h <;>
    simp [← h]

theorem outputs_of_comb {s : State} (h : s.design.outReg = false) : outputs s = ⟨s.y, s.eq⟩ := by
  simp [outputs, h]

theorem outputs_of_reg {s : State} (h : s.design.outReg = true) : outputs s = ⟨s.yQ, s.eqQ⟩ := by
  simp [outputs, h]

/-- A delivered result is what the outputs show. -/
@[simp] theorem outputs_deliver (o : Output) (s : State) : outputs (deliver o s) = o := by
  rcases deliver_cases o s with ⟨hr, h⟩ | ⟨hr, h⟩ <;> simp [outputs, h, hr]

/-- `evalPorts` reads the ports and the design only (10_state.md R29). -/
theorem evalPorts_congr {s t : State} (hd : t.design = s.design) (ho : t.op = s.op) (ha : t.a = s.a)
    (hb : t.b = s.b) : evalPorts t = evalPorts s := by
  simp [evalPorts, hd, ho, ha, hb]

end Sys2Proof.Machine
end

