-- ==== Sys2Proof/Tests/Slice0.lean ====
section
/-!
SUPPORT. The model's own tests, with expected results from the spec, and a witness for the hypotheses of
each statement that has any.
-/

namespace Sys2Proof.Tests

open Machine Statements

/-! ## Well-formedness: each check refuses an ill-formed term -/

/-- A mantissa of one bit has no magnitude in `[1/2, 1)` (42_additive.md R106). -/
theorem test_staged_width_one_refused : Config.Staged.wf ⟨1, .floor, 1⟩ = false := by decide

/-- With the offset 0 the mantissa of ONE is 1, outside `[1/2, 1)` (42_additive.md R106). -/
theorem test_staged_offset_zero_refused : Config.Staged.wf ⟨24, .floor, 0⟩ = false := by decide

theorem test_design_with_bad_staged_refused :
    Config.Design.wf ⟨false, .staged ⟨0, .truncate, 1⟩⟩ = false := by decide

theorem test_designs_accepted :
    Config.Design.wf Config.Design.default = true ∧ Config.Design.wf ⟨true, .free⟩ = true ∧
      Config.Design.wf ⟨true, .staged ⟨2, .floor, 1⟩⟩ = true := by decide

/-! ## Decoding: the words of 30_encoding.md R58, bit by bit -/

theorem test_decode_mul : decodeTableWord 8 0b00000000 = some .mul := by decide
theorem test_decode_div : decodeTableWord 8 0b00000001 = some .div := by decide
theorem test_decode_add : decodeTableWord 8 0b00000010 = some .add := by decide
theorem test_decode_sub : decodeTableWord 8 0b00000011 = some .sub := by decide
theorem test_decode_sqrt : decodeTableWord 8 0b00000100 = some .sqrt := by decide
theorem test_decode_neg : decodeTableWord 8 0b00000101 = some .neg := by decide
theorem test_decode_eq : decodeTableWord 8 0b00000110 = some .eq := by decide
theorem test_decode_reserved_rejected : decodeTableWord 8 0b00000111 = none := by decide

/-- The input vector of the first EQ of program P1 (95_test_vectors.md §3). -/
theorem test_vector_p1_eq :
    encodeVector .eq 0x01000000 0x40000000 = 0x60100000040000000 := by decide

/-- The input vector of step 7 of program P3 (95_test_vectors.md §3). -/
theorem test_vector_p3_add :
    decodeVector 0x28080000001000000 = .ok ⟨.add, 0x80800000, 0x01000000⟩ := by decide

/-! ## One step -/

/-- The reset state with an evaluation driven on its ports. -/
def driven (op : OpSelect) (a b : Word) : State := driveInputs op a b State.reset

/-- The reset state of a block with the output register. -/
def registered : State := { State.reset with design := ⟨true, .reference⟩ }

/-- The outputs after one step. -/
def stepOutputs (s : State) : Option Output :=
  match step s with
  | .next t => some (outputs t)
  | .fault _ => none
  | .refused _ => none

/-- S1 of 95_test_vectors.md §1. -/
theorem test_mul_wraps :
    stepOutputs (driven 0b000 0xDEADBEEF 0xBEEFDEAD) = some ⟨0x1D9D9D9C, false⟩ := by decide

/-- 90_conflicts.md C2. -/
theorem test_mul_nar_before_zero :
    stepOutputs (driven 0b000 0x40000000 0xC0000000) = some ⟨0xC0000000, false⟩ := by decide

/-- S2 of 95_test_vectors.md §1. -/
theorem test_div_wraps :
    stepOutputs (driven 0b001 0xDEADBEEF 0xBEEFDEAD) = some ⟨0x1FBDE042, false⟩ := by decide

/-- 90_conflicts.md C3. -/
theorem test_div_zero_by_zero :
    stepOutputs (driven 0b001 0x40000000 0x40000000) = some ⟨0xC0000000, false⟩ := by decide

/-- S6 of 95_test_vectors.md §1. -/
theorem test_add_required_vector :
    stepOutputs (driven 0b010 0x3FFFFFFF 0x343BFAE6) = some ⟨0x40000000, false⟩ := by decide +kernel

/-- Severe cancellation (95_test_vectors.md §2). -/
theorem test_add_severe_cancellation :
    stepOutputs (driven 0b010 0x00000000 0x80000001) = some ⟨0xF43C5163, false⟩ := by decide +kernel

/-- `ZERO - b = NEG(b)` (95_test_vectors.md §2). -/
theorem test_sub_from_zero :
    stepOutputs (driven 0b011 0x40000000 0x12345678) = some ⟨0x92345678, false⟩ := by decide

/-- `4 - 2 = 2`, the exact case of 42_additive.md R113 (95_test_vectors.md §2). -/
theorem test_sub_exact :
    stepOutputs (driven 0b011 0x01000000 0x00800000) = some ⟨0x00800000, false⟩ := by decide

/-- S3 of 95_test_vectors.md §1. -/
theorem test_sqrt_negative_exponent :
    stepOutputs (driven 0b100 0x70006101 0x12345678) = some ⟨0x78003080, false⟩ := by decide

/-- `sqrt(-1)` (95_test_vectors.md §2). -/
theorem test_sqrt_negative_operand :
    stepOutputs (driven 0b100 0x80000000 0x00000000) = some ⟨0xC0000000, false⟩ := by decide

/-- 90_conflicts.md C4. -/
theorem test_neg_nar :
    stepOutputs (driven 0b101 0xC0000000 0x00000000) = some ⟨0xC0000000, false⟩ := by decide

/-- The worked example of 42_additive.md R117. -/
theorem test_neg_flips_sign :
    stepOutputs (driven 0b101 0xDEADBEEF 0x00000000) = some ⟨0x5EADBEEF, false⟩ := by decide

/-- The worked example of 40_representation.md R74. -/
theorem test_eq_nar :
    stepOutputs (driven 0b110 0xC0000000 0xC0000000) = some ⟨0xC0000000, true⟩ := by decide

/-- 95_test_vectors.md §2. -/
theorem test_eq_differs :
    stepOutputs (driven 0b110 0x12345678 0x12345679) = some ⟨0x12345678, false⟩ := by decide

/-- Not an equality even for equal operands (95_test_vectors.md §2). -/
theorem test_reserved :
    stepOutputs (driven 0b111 0x12345678 0x12345678) = some ⟨0xC0000000, false⟩ := by decide

/-- Edge 1 of program P5 (95_test_vectors.md §3). -/
theorem test_register_captures :
    stepOutputs (driveInputs 0b000 0x00800000 0x00800000 registered) =
      some ⟨0x01000000, false⟩ := by decide

/-- Edge 4 of program P5: reset wins (95_test_vectors.md §3). -/
theorem test_register_reset_wins :
    stepOutputs (driveReset true (driveInputs 0b000 0x00800000 0x00800000 registered)) =
      some ⟨0x40000000, false⟩ := by decide

/-- The row "before edge 0" of program P5 (95_test_vectors.md §3). -/
theorem test_power_up_read_faults :
    sample (powerUp ⟨true, .reference⟩) = .fault .outputHasNoValue := by rfl

/-- ONE is `1/2 * 2^(0 + 1)`, and ONE + ONE is 2: the exact doubling of 42_additive.md R113, which no
mantissa width can miss. The mantissa of `sqrt(2)` at 8 bits is 90 or 91: `128 * 0.7071 = 90.51`. -/
theorem test_staged_doubles_one :
    decompose ⟨8, .floor, 1⟩ 0x00000000 = ⟨0, 64⟩ ∧
      stagedCore ⟨8, .floor, 1⟩ 0x00000000 0x00000000 = 0x00800000 ∧
      antilogFloor (6 * 2 ^ 23 + 2 ^ 22) = 90 := by decide +kernel

/-- Stage 5 on the magnitude `1/2 * 2^1 = 1`, whose field is 0 (42_additive.md R110, 30_encoding.md
R54). -/
theorem test_reencode_one :
    reencode ⟨24, .floor, 1⟩ ⟨0, 2 ^ 22⟩ = some 0 := by decide +kernel

/-- Stage 5 rounds `3` to the field of 95_test_vectors.md's `2 + 1`. -/
theorem test_reencode_three :
    reencode ⟨24, .floor, 1⟩ ⟨1, 3 * 2 ^ 21⟩ = some 0x00CAE00D := by decide +kernel

/-- The word `0x01020304` in three orders of its bytes, one of them neither little- nor big-endian. -/
theorem test_store_orders :
    storeWord littleEndian 0x01020304 = [4, 3, 2, 1] ∧ storeWord bigEndian 0x01020304 = [1, 2, 3, 4] ∧
      storeWord (Equiv.swap 0 1) 0x01020304 = [3, 4, 2, 1] ∧
      loadWord (Equiv.swap 0 1) [3, 4, 2, 1] = some 0x01020304 := by decide

/-! ## Witnesses: concrete states and operands that meet the hypotheses of the statements -/

theorem witness_reset_evaluates : Evaluates State.reset := .inl rfl

theorem witness_StepRunsDecodedInstruction :
    (decode (driven 0b010 1 2).op = .ok .add ∧ Instr.add.wf = true ∧ Evaluates (driven 0b010 1 2)) ∧
      ¬Evaluates (driveClock .quiet true registered) := by
  refine ⟨⟨rfl, rfl, .inl rfl⟩, ?_⟩
  simp [Evaluates, registered]

theorem witness_DrivenTableWordRunsNext : decodeTableWord 8 6 = some .eq := by decide

theorem witness_StepFrame :
    (∃ t, step State.reset = .next t) ∧ (∃ t, step (driveClock .quiet true registered) = .next t) ∧
      State.reset.design.outReg = false ∧ registered.design.outReg = true :=
  ⟨⟨_, rfl⟩, ⟨_, rfl⟩, rfl, rfl⟩

theorem witness_StepKeepsInvariant :
    ∃ s t, s.design.outReg = true ∧ Inv s ∧ step s = .next t :=
  ⟨registered, _, rfl, ⟨rfl, fun h => nomatch h⟩, rfl⟩

theorem witness_ReachableStatesHaveInvariant : Reachable (driven 0b001 1 2) :=
  .driveInputs _ _ _ (.start Config.Design.default rfl)

theorem witness_ResultsDependOnInputsAlone :
    ∃ s u t v : State, s ≠ u ∧ s.design = u.design ∧ s.op = u.op ∧ s.a = u.a ∧ s.b = u.b ∧
      Evaluates s ∧ Evaluates u ∧ step s = .next t ∧ step u = .next v :=
  ⟨registered, driveClock .rises true (loadReset { registered with yQ := 5, eqQ := true, freeIndex := 3 }),
    _, _, by decide, rfl, rfl, rfl, rfl, .inr ⟨rfl, rfl, rfl⟩, .inr ⟨rfl, rfl, rfl⟩, rfl, rfl⟩

theorem witness_EvaluationIsIdempotent :
    ∃ s t, Evaluates s ∧ step s = .next t ∧ s ≠ t :=
  ⟨driven 0b110 7 7, _, .inl rfl, rfl, by decide⟩

theorem witness_ResetEdgeLoadsResetValues :
    ∃ s : State, s.design.outReg = true ∧ s.clk = .rises ∧ s.windowMet = true ∧ s.rst = true :=
  ⟨driveReset true registered, rfl, rfl, rfl, rfl⟩

theorem witness_RegisterCapturesOnlyAtEdges :
    (∃ s : State, s.design.outReg = true ∧ s.clk = .rises ∧ s.windowMet = true ∧ s.rst = false) ∧
      ∃ s : State, s.design.outReg = true ∧ s.clk = .quiet :=
  ⟨⟨registered, rfl, rfl, rfl, rfl⟩, ⟨driveClock .quiet true registered, rfl, rfl⟩⟩

theorem witness_RegisterLatencyIsOneEdge :
    ∃ s t : State, s.design.outReg = true ∧ s.clk = .rises ∧ s.windowMet = true ∧ s.rst = false ∧
      step s = .next t :=
  ⟨registered, _, rfl, rfl, rfl, rfl, rfl⟩

theorem witness_ReadFaultsUntilFirstEdge :
    (∃ s t : State, s.design.outReg = true ∧ s.clk = .quiet ∧
      sample s = .fault .outputHasNoValue ∧ step s = .next t) ∧
    (∃ s t : State, s.design.outReg = true ∧ s.clk = .rises ∧ step s = .next t) ∧
    (∃ s : State, s.design.outReg = false) :=
  ⟨⟨driveClock .quiet true (powerUp ⟨true, .free⟩), _, rfl, rfl, rfl, rfl⟩,
    ⟨powerUp ⟨true, .free⟩, _, rfl, rfl, rfl⟩, ⟨State.reset, rfl⟩⟩

theorem witness_SettledOutputsReadEval :
    ∃ s t : State, s.design.outReg = false ∧ step s = .next t := ⟨driven 0b011 3 4, _, rfl, rfl⟩

theorem witness_BrokenWindowChangesOnlyRegisters :
    ∃ s : State, s.design.outReg = true ∧ s.clk = .rises ∧ s.windowMet = false :=
  ⟨driveClock .rises false registered, rfl, rfl, rfl⟩

theorem witness_ReservedSelectDrivesNar :
    (driven 0b111 1 2).op = 0b111 ∧ Evaluates (driven 0b111 1 2) := ⟨rfl, .inl rfl⟩

/-- Both landings of 41_multiplicative.md R81, at the boundary sums, with each outer sign. -/
theorem witness_MulLandsOnSentinel :
    Plain 0x3FFFFFFF ∧ Plain 0x00000001 ∧ Plain 0xBFFFFFFF ∧ Plain 0x40000001 ∧ Plain 0x7FFFFFFF ∧
      logField 0x3FFFFFFF + logField 0x00000001 = 2 ^ 30 ∧
      logField 0x40000001 + logField 0x7FFFFFFF = -2 ^ 30 ∧
      field (rawMul 0xBFFFFFFF 0x00000001) = 0x40000000 := by
  unfold Plain; decide

/-- Both landings of 41_multiplicative.md R84, at the boundary differences. -/
theorem witness_DivLandsOnSentinel :
    Plain 0x3FFFFFFF ∧ Plain 0x7FFFFFFF ∧ Plain 0xFFFFFFFF ∧
      logField 0x3FFFFFFF - logField 0x7FFFFFFF = 2 ^ 30 ∧
      logField 0x7FFFFFFF - logField 0x3FFFFFFF = -2 ^ 30 ∧
      field (rawDiv 0xFFFFFFFF 0x3FFFFFFF) = 0x40000000 := by
  unfold Plain; decide

/-- Operands whose field sums are the ends of the exact range of 41_multiplicative.md R82. -/
theorem witness_MulLaws :
    Plain 0x3FFFFFFE ∧ Plain 0x00000001 ∧ Plain 0x40000002 ∧ Plain 0x7FFFFFFF ∧
      logField 0x3FFFFFFE + logField 0x00000001 = 2 ^ 30 - 1 ∧
      logField 0x40000002 + logField 0x7FFFFFFF = -2 ^ 30 + 1 ∧
      (0x40000000 : Word) ≠ 0xC0000000 := by
  unfold Plain; decide

theorem witness_MulDivCornerCases : Plain 0x40000001 ∧ Plain 0xBFFFFFFF := by unfold Plain; decide

/-- An even field, an odd one, and the odd one whose square lands on ZERO (41_multiplicative.md R86). -/
theorem witness_SqrtLaws :
    sign 0x01000000 = false ∧ (0x01000000 : Word) ≠ 0x40000000 ∧ logField 0x01000000 % 2 = 0 ∧
      sign 0x00000001 = false ∧ (0x00000001 : Word) ≠ 0x40000000 ∧ logField 0x00000001 % 2 = 1 ∧
      sign 0x40000001 = false ∧ (0x40000001 : Word) ≠ 0x40000000 ∧ logField 0x40000001 % 2 = 1 := by
  decide

theorem witness_NegLaws : Plain 0x40000001 ∧ Plain 0xC0000001 := by unfold Plain; decide

theorem witness_EqIsEquivalence (core : Word → Word → Word) :
    (eval core 0b110 0xC0000000 0xC0000000).eq = true := rfl

theorem witness_SubCornerCases : (0x40000000 : Word) ≠ 0xC0000000 ∧ Plain 0x12345678 := by
  unfold Plain; decide

theorem witness_WordsEncodeDistinctReals : Plain 0x00000000 ∧ Plain 0x80000000 := by
  unfold Plain; decide

theorem witness_MagnitudeOrderIsFieldOrder :
    Plain 0x40000001 ∧ Plain 0x3FFFFFFF ∧ logField 0x40000001 < logField 0x3FFFFFFF := by
  unfold Plain; decide

theorem witness_EveryDesignCoreConforms :
    Config.Design.wf ⟨false, .staged ⟨2, .truncate, 1⟩⟩ = true ∧
      inAddDomain 0xDEADBEEF 0xBEEFDEAD = true := by decide

/-- A function that meets the constraints of every `ADD_CORE`. -/
theorem witness_EveryConformingCoreRejectsS5 :
    Conforms (constrainedCore fun _ _ => 0) ∧ inAddDomain 0xDEADBEEF 0xBEEFDEAD = true ∧
      sign 0xDEADBEEF = true ∧ sign 0xBEEFDEAD = true :=
  ⟨constrainedCore_conforms fun _ _ _ => rfl, by decide⟩

theorem witness_ReferenceAdderIsRoundedExactSum :
    inAddDomain 0x01000000 0x00800000 = true ∧ inAddDomain 0x00000000 0x80000001 = true := by decide

theorem witness_DecidedSumsAreRoundedExactSums :
    (inAddDomain 0x01000000 0x80800000 = true ∧
      (nearestExponent (relativeSum (sameSign 0x01000000 0x80800000)
        (logField 0x01000000 - logField 0x80800000).natAbs)).isSome = true) ∧
      inAddDomain 0x00000000 0x00000001 = true ∧ sameSign 0x00000000 0x00000001 = true ∧
      (logField 0x00000000 - logField 0x00000001).natAbs = 1 := by decide +kernel

/-- The distances next to the two that are left out, and the largest. -/
theorem witness_RefinementAlwaysDecides :
    (nearestExponent (relativeSum true 0)).isSome = true ∧
      (nearestExponent (relativeSum true 2)).isSome = true ∧
      (nearestExponent (relativeSum false 1)).isSome = true ∧
      (nearestExponent (relativeSum false (2 ^ 31 - 1))).isSome = true := by decide +kernel

theorem witness_TieIsOneStepApartAndGoesToEven :
    inAddDomain 0x80000002 0x80000001 = true ∧ sign 0x80000002 = sign 0x80000001 ∧
      |logField 0x80000002 - logField 0x80000001| = 1 := by decide

theorem witness_ExactSumsAreDoublingOrHalving :
    inAddDomain 0x00800000 0x80000000 = true ∧ sign 0x00800000 ≠ sign 0x80000000 ∧
      logField 0x00800000 - logField 0x80000000 = 2 ^ 23 ∧ Plain 0x3F800000 := by
  unfold Plain; decide

/-- Both sides of the same-sign threshold, and the opposite-sign one (42_additive.md R115). -/
theorem witness_AbsorptionThresholds :
    inAddDomain 0x20000000 0x13BC5162 = true ∧ inAddDomain 0x20000000 0x93BC5161 = true ∧
      logField 0x20000000 - logField 0x13BC5163 = 205762205 ∧
      logField 0x20000000 - logField 0x13BC5162 = 205762206 ∧
      logField 0x20000000 - logField 0x93BC5161 = 205762207 ∧
      sign 0x20000000 = sign 0x13BC5162 ∧ sign 0x20000000 ≠ sign 0x93BC5161 := by decide

/-- The least width, both conventions, and a negative field that is a whole number of `N`. -/
theorem witness_DecomposeIsNormalized :
    Config.Staged.wf ⟨2, .floor, 1⟩ = true ∧ Config.Staged.wf ⟨24, .truncate, 1⟩ = true ∧
      0 ≤ logField 0x3FFFFFFF ∧ logField 0x7F800000 % 2 ^ 23 = 0 ∧ logField 0x7F800000 < 0 := by decide

theorem witness_DecomposeReconstructsOperand :
    Config.Staged.wf ⟨2, .truncate, 1⟩ = true ∧ logField 0x7F800000 % 2 ^ 23 = 0 := by decide

/-- Shifts just below the width and at it, of a negative mantissa; exponents apart and equal; the largest
mantissas (42_additive.md R107, R108). -/
theorem witness_AlignShiftsFloorAndVanish :
    shiftMantissa 8 (-1) 7 = -1 ∧ shiftMantissa 8 (-1) 8 = 0 ∧ (0 : Nat) < 8 ∧
      align 8 ⟨3, 64⟩ ⟨1, -65⟩ = ⟨3, 64, -17⟩ ∧ align 8 ⟨1, -65⟩ ⟨3, 64⟩ = ⟨3, -17, 64⟩ ∧
      align 8 ⟨2, 64⟩ ⟨2, -65⟩ = ⟨2, 64, -65⟩ ∧ (-127 : Int).natAbs < 2 ^ (8 - 1) ∧
      (sumAligned (align 8 ⟨0, -127⟩ ⟨0, -127⟩)).mantissa.natAbs = 2 ^ 8 - 2 := by decide

/-- The largest sum, a sum at 1, a normalized sum, and a cancelled one (42_additive.md R109). -/
theorem witness_RenormalizeRestoresRange :
    renormalize 8 false ⟨0, -254⟩ = ⟨1, -127⟩ ∧ renormalize 8 false ⟨0, 128⟩ = ⟨1, 64⟩ ∧
      renormalize 8 true ⟨0, 64⟩ = ⟨0, 64⟩ ∧ renormalize 8 true ⟨0, -1⟩ = ⟨-6, -64⟩ := by decide

theorem witness_ReencodeIsNearestMagnitude :
    ∃ r, (2 ^ 22 : Int) ≠ 0 ∧ reencode ⟨24, .floor, 1⟩ ⟨0, 2 ^ 22⟩ = some r :=
  ⟨0, by decide, test_reencode_one⟩

theorem witness_ReencodeAlwaysDecides :
    (-(2 ^ 24 - 1) : Int) ≠ 0 ∧ (-(2 ^ 24 - 1) : Int).natAbs < 2 ^ (24 : Nat) := by decide

/-- `1 + 1`, whose aligned sum is 1, and `1 - 2`, whose aligned sum is below `1/2`; stage 5 decides both. -/
theorem witness_StagedCoreComposesStages :
    Config.Staged.wf ⟨8, .floor, 1⟩ = true ∧
      inAddDomain 0x00000000 0x00000000 = true ∧
      (stagedSum ⟨8, .floor, 1⟩ 0x00000000 0x00000000).mantissa = 128 ∧
      inAddDomain 0x00000000 0x80800000 = true ∧
      (stagedSum ⟨8, .floor, 1⟩ 0x00000000 0x80800000).mantissa = -32 ∧
      reencode ⟨8, .floor, 1⟩ (renormalize 8 (!sameSign 0x00000000 0x80800000)
        (stagedSum ⟨8, .floor, 1⟩ 0x00000000 0x80800000)) = some 0 := by decide +kernel

theorem witness_DecidedStagedSumsAreNearestMagnitudes :
    Config.Staged.wf ⟨8, .floor, 1⟩ = true ∧ inAddDomain 0x00000000 0x80800000 = true ∧
      (stagedSum ⟨8, .floor, 1⟩ 0x00000000 0x80800000).mantissa ≠ 0 ∧
      reencode ⟨8, .floor, 1⟩ (renormalize 8 (!sameSign 0x00000000 0x80800000)
        (stagedSum ⟨8, .floor, 1⟩ 0x00000000 0x80800000)) = some 0 :=
  have ⟨hw, _, _, hd, hm, hr⟩ := witness_StagedCoreComposesStages
  ⟨hw, hd, by rw [hm]; decide, hr⟩

theorem witness_HostBytesRoundTrip : [(1 : BitVec 8), 2, 3, 4].length = 4 := rfl

end Sys2Proof.Tests
end

section
/-!
PROOFS. The reset state (00_scope.md R6, 10_state.md R27, 70_reset_and_hazards.md R161).
-/

namespace Sys2Proof.Proofs.Reset

open Machine

/-- The reading of log 17: the reset state is one that a reset edge leaves as it is, so what its registers
hold follows from the laws of `loadReset`. -/
theorem loadReset_reset : loadReset State.reset = State.reset := rfl

theorem reset_yQ : State.reset.yQ = ZERO := by
  rw [← loadReset_reset, loadReset_yQ]

theorem reset_eqQ : State.reset.eqQ = false := by
  rw [← loadReset_reset, loadReset_eqQ]

theorem reset_qDefined : State.reset.qDefined = true := by
  rw [← loadReset_reset, loadReset_qDefined]

@[simp] theorem reset_design : State.reset.design = Config.Design.default := rfl

@[simp] theorem default_outReg : Config.Design.default.outReg = false := rfl

@[simp] theorem default_addCore : Config.Design.default.addCore = .reference := rfl

/-- Settles O13: the registers hold what a reset edge loads, and the design is the default one. -/
theorem resetStateHoldsResetValues : Obligations.ResetStateHoldsResetValues := by
  unfold Obligations.ResetStateHoldsResetValues
  have yQ_value : State.reset.yQ = 0x40000000 := reset_yQ
  have outReg_zero : State.reset.design.outReg = false := by rw [reset_design, default_outReg]
  have core_reference : State.reset.design.addCore = .reference := by
    rw [reset_design, default_addCore]
  exact ⟨yQ_value, reset_eqQ, reset_qDefined, outReg_zero, core_reference⟩

end Sys2Proof.Proofs.Reset
end

section
/-!
PROOFS. What one step does, as four named effects, and the statements about single steps (10_state.md
R20, R23, R26, R27; 70_reset_and_hazards.md R161, R164).
-/

namespace Sys2Proof.Proofs.Stepping

open Machine Statements

variable {s t : State}

/-! ## The rule of each edge -/

theorem edgeAction_eq_evaluate_iff (s : State) : edgeAction s = .evaluate ↔ Evaluates s := by
  unfold Evaluates
  rcases edgeAction_cases s with ⟨hr, he⟩ | ⟨hr, hc, he⟩ | ⟨hr, hc, hw, he⟩ |
    ⟨hr, hc, hw, hrst, he⟩ | ⟨hr, hc, hw, hrst, he⟩ <;> simp [*]

theorem step_eq_runSelected (h : Evaluates s) : step s = runSelected s := by
  simp [step, (edgeAction_eq_evaluate_iff s).mpr h]

theorem step_of_evaluates (h : Evaluates s) : step s = .next (deliver (evalPorts s) s) :=
  (step_eq_runSelected h).trans (runSelected_eq_deliver s)

theorem step_of_quiet (hr : s.design.outReg = true) (hc : s.clk = .quiet) : step s = .next s := by
  simp [step, edgeAction, hr, hc]

theorem step_of_resetEdge (hr : s.design.outReg = true) (hc : s.clk = .rises)
    (hw : s.windowMet = true) (hrst : s.rst = true) : step s = .next (loadReset s) := by
  simp [step, edgeAction, hr, hc, hw, hrst]

theorem step_of_brokenWindow (hr : s.design.outReg = true) (hc : s.clk = .rises)
    (hw : s.windowMet = false) : step s = .next (captureUnknown s) := by
  simp [step, edgeAction, hr, hc, hw]

/-! ## The four effects of a step -/

/-- The state a step leads to, one constructor for each thing a step can do, with the inputs that make
it do so. `stepEffect_iff` ties it to `step`. -/
inductive StepEffect (s : State) : State → Prop where
  | evaluates : Evaluates s → StepEffect s (deliver (evalPorts s) s)
  | holds : s.design.outReg = true → s.clk = .quiet → StepEffect s s
  | loadsReset : s.design.outReg = true → s.clk = .rises → s.windowMet = true → s.rst = true →
      StepEffect s (loadReset s)
  | capturesUnknown : s.design.outReg = true → s.clk = .rises → s.windowMet = false →
      StepEffect s (captureUnknown s)

theorem StepEffect.step_eq (h : StepEffect s t) : step s = .next t := by
  cases h with
  | evaluates he => exact step_of_evaluates he
  | holds hr hc => exact step_of_quiet hr hc
  | loadsReset hr hc hw hrst => exact step_of_resetEdge hr hc hw hrst
  | capturesUnknown hr hc hw => exact step_of_brokenWindow hr hc hw

/-- The four effects leave no state out. -/
theorem exists_stepEffect (s : State) : ∃ t, StepEffect s t := by
  rcases edgeAction_cases s with ⟨hr, -⟩ | ⟨hr, hc, -⟩ | ⟨hr, hc, hw, -⟩ |
    ⟨hr, hc, hw, hrst, -⟩ | ⟨-, hc, hw, hrst, -⟩
  · exact ⟨_, .evaluates (.inl hr)⟩
  · exact ⟨_, .holds hr hc⟩
  · exact ⟨_, .capturesUnknown hr hc hw⟩
  · exact ⟨_, .loadsReset hr hc hw hrst⟩
  · exact ⟨_, .evaluates (.inr ⟨hc, hw, hrst⟩)⟩

theorem stepEffect_iff : StepEffect s t ↔ step s = .next t := by
  refine ⟨StepEffect.step_eq, fun h => ?_⟩
  obtain ⟨u, hu⟩ := exists_stepEffect s
  have hut : u = t := by simpa [h] using hu.step_eq.symm
  exact hut ▸ hu

/-! ## What a delivery is, and what it leaves alone -/

theorem deliversTo_iff {w : Word} {e : Bool} : DeliversTo s t w e ↔ t = deliver ⟨w, e⟩ s := by
  unfold DeliversTo
  rcases deliver_cases ⟨w, e⟩ s with ⟨hr, hd⟩ | ⟨hr, hd⟩
  · rw [hd, hr]; rfl
  · rw [hd, hr]; rfl

/-- With the output register a delivery leaves the wires alone (10_state.md R26). -/
theorem deliver_wires_of_reg (o : Output) (hr : s.design.outReg = true) :
    (deliver o s).y = s.y ∧ (deliver o s).eq = s.eq ∧ (deliver o s).settled = s.settled := by
  simp [deliver_of_reg o hr]

/-- Without the output register a delivery leaves the register fields alone (10_state.md R20). -/
theorem deliver_registers_of_comb (o : Output) (hr : s.design.outReg = false) :
    (deliver o s).yQ = s.yQ ∧ (deliver o s).eqQ = s.eqQ ∧ (deliver o s).qDefined = s.qDefined := by
  simp [deliver_of_comb o hr]

@[simp] theorem evalPorts_deliver (o : Output) (s : State) : evalPorts (deliver o s) = evalPorts s :=
  evalPorts_congr (deliver_design o s) (deliver_op o s) (deliver_a o s) (deliver_b o s)

/-! ## The decoded instruction -/

theorem runSelected_of_decode {i : Instr} (h : decode s.op = .ok i) : runSelected s = exec i s := by
  simp [runSelected, h]

theorem decode_of_decodeTableWord {n w : Nat} {i : Instr} (h : decodeTableWord n w = some i) :
    decode (selectOfNat (w % 2 ^ n)) = .ok i := by
  unfold decodeTableWord at h
  cases hd : decode (selectOfNat (w % 2 ^ n)) with
  | ok j => simpa [hd, Except.toOption] using h
  | error e => simp [hd, Except.toOption] at h

theorem evaluates_withFetchWord (s : State) (n w : Nat) : Evaluates (s.withFetchWord n w) :=
  .inr (by simp [State.withFetchWord])

/-! ## The statements -/

/-- Settles O5: every state has a step effect, and every instruction is a delivery. -/
theorem noStepFaultsOrRefuses : Obligations.NoStepFaultsOrRefuses := by
  refine ⟨fun s => ?_, fun i s => ⟨_, exec_eq_deliver i s⟩⟩
  obtain ⟨t, ht⟩ := exists_stepEffect s
  exact ⟨t, ht.step_eq⟩

/-- Settles O6: an evaluating step delivers the outputs of `evalPorts`. -/
theorem stepDeliversEval : Obligations.StepDeliversEval :=
  fun _ h => ⟨_, step_of_evaluates h, deliversTo_iff.mpr rfl⟩

/-- Settles O7, by cases on the effect of the step. -/
theorem stepFrame : Obligations.StepFrame := by
  intro s t h
  cases stepEffect_iff.mpr h with
  | evaluates he =>
    have hregisters : s.design.outReg = false ∨ s.clk = .quiet → s.design.outReg = false := by
      rintro (hr | hc)
      · exact hr
      · exact he.resolve_right (by simp [hc])
    simpa using ⟨deliver_wires_of_reg _, deliver_registers_of_comb _ ∘ hregisters⟩
  | holds => simp
  | loadsReset hr hc => simp [hr, hc]
  | capturesUnknown hr hc hw => simp [hr, hc, hw]

/-- Settles O11: what an evaluation shows is `evalPorts`, which reads the ports and the design alone. -/
theorem resultsDependOnInputsAlone : Obligations.ResultsDependOnInputsAlone := by
  intro s u t v hd ho ha hb hs hu ht hv
  obtain rfl : deliver (evalPorts s) s = t := by simpa [step_of_evaluates hs] using ht
  obtain rfl : deliver (evalPorts u) u = v := by simpa [step_of_evaluates hu] using hv
  simpa using evalPorts_congr hd ho ha hb

/-- Settles O3: an evaluating step runs the selected operation, and the other three effects are those of
the clock, the window and the reset. -/
theorem stepRunsDecodedInstruction : Obligations.StepRunsDecodedInstruction := by
  refine ⟨fun s i hdec _ he => (step_eq_runSelected he).trans (runSelected_of_decode hdec), ?_⟩
  intro s hne
  obtain ⟨t, ht⟩ := exists_stepEffect s
  rw [ht.step_eq]
  cases ht with
  | evaluates he => exact absurd he hne
  | holds _ hc => simp [hc]
  | loadsReset _ hc hw => simp [hc, hw]
  | capturesUnknown _ hc hw => simp [hc, hw]

/-- Settles O4: the driven state evaluates, and its select is the table word's. -/
theorem drivenTableWordRunsNext : Obligations.DrivenTableWordRunsNext := by
  intro s n w i h
  have hop : decode (s.withFetchWord n w).op = .ok i := by
    simpa [State.withFetchWord] using decode_of_decodeTableWord h
  refine ⟨(step_eq_runSelected (evaluates_withFetchWord s n w)).trans (runSelected_of_decode hop), ?_⟩
  simp [State.withFetchWord]

end Sys2Proof.Proofs.Stepping
end

section
/-!
PROOFS. What a read of the outputs answers (10_state.md R26, R28; 70_reset_and_hazards.md R163).
-/

namespace Sys2Proof.Proofs.Sampling

open Machine

variable {s t : State}

/-- Registers that hold a value are read as they are (10_state.md R26). -/
theorem sample_of_defined (hr : s.design.outReg = true) (hq : s.qDefined = true) :
    sample s = .next (⟨s.yQ, s.eqQ⟩, s) := by simp [sample, hr, hq]

/-- Settled wires are read as they are (70_reset_and_hazards.md R163). -/
theorem sample_of_settled (hr : s.design.outReg = false) (hs : s.settled = true) :
    sample s = .next (outputs s, s) := by simp [sample, outputs, hr, hs]

theorem sample_of_unsettled (hr : s.design.outReg = false) (hs : s.settled = false) :
    sample s = .next (sampleUnsettled s) := by simp [sample, hr, hs]

/-- A read faults exactly while the registers hold no value (10_state.md R28). -/
theorem sample_faults_iff :
    sample s = .fault .outputHasNoValue ↔ s.design.outReg = true ∧ s.qDefined = false := by
  rcases sample_cases s with ⟨hr, hq, h⟩ | ⟨hr, hq, h⟩ | ⟨hr, -, h⟩ | ⟨hr, -, h⟩ <;> simp [*]

/-- A read that answers leaves the state alone, but for the index of free values if the wires have not
settled (log 3). -/
theorem sample_next_cases {o : Output} (h : sample s = .next (o, t)) :
    t = s ∨ s.settled = false ∧ t = { s with freeIndex := s.freeIndex + 1 } := by
  rcases sample_cases s with ⟨-, -, h'⟩ | ⟨-, -, h'⟩ | ⟨-, -, h'⟩ | ⟨-, hs, h'⟩ <;> rw [h'] at h <;>
    cases h
  · exact .inl rfl
  · exact .inl rfl
  · exact .inr ⟨hs, rfl⟩

end Sys2Proof.Proofs.Sampling
end

section
/-!
PROOFS. The invariant of the combinational block, kept by every step and by every operation of the host
(10_state.md R20, 70_reset_and_hazards.md R163).
-/

namespace Sys2Proof.Proofs.Invariant

open Machine Stepping Sampling

variable {s t : State}

/-! ## Ways to have the invariant -/

theorem inv_of_reg (hd : s.design.wf = true) (hr : s.design.outReg = true) : Inv s where
  design_wf := hd
  settled_eval hcomb := by simp [hr] at hcomb

theorem inv_of_unsettled (hd : s.design.wf = true) (hs : s.settled = false) : Inv s where
  design_wf := hd
  settled_eval _ hsettled := by simp [hs] at hsettled

/-- A delivery of `evalPorts` gives outputs that agree with the ports, which it does not change. -/
theorem inv_deliver_evalPorts (hd : s.design.wf = true) : Inv (deliver (evalPorts s) s) where
  design_wf := by simpa using hd
  settled_eval _ _ := by rw [outputs_deliver, evalPorts_deliver]

/-- The invariant reads the design, the operand ports and the wires only: whatever leaves those as they
are keeps it. -/
theorem inv_of_same_ports_and_wires (hi : Inv s) (hd : t.design = s.design) (ho : t.op = s.op)
    (ha : t.a = s.a) (hb : t.b = s.b) (hy : t.y = s.y) (he : t.eq = s.eq)
    (hs : t.settled = s.settled) : Inv t where
  design_wf := by rw [hd]; exact hi.design_wf
  settled_eval hr hsettled := by
    have hrs : s.design.outReg = false := by rw [← hd, hr]
    have houtputs : outputs t = outputs s := by
      rw [outputs_of_comb hr, outputs_of_comb hrs, hy, he]
    rw [houtputs, evalPorts_congr hd ho ha hb]
    exact hi.settled_eval hrs (hs ▸ hsettled)

/-- After reset the ports are MUL of ONE by ONE, and the wires show its result (log 1). -/
theorem inv_reset_of_wf {d : Config.Design} (hd : d.wf = true) :
    Inv { State.reset with design := d } where
  design_wf := hd
  settled_eval hr _ := by
    have mul_one_one : mulOutput 0 0 = ⟨0, false⟩ := by decide
    rw [outputs_of_comb hr]
    exact mul_one_one.symm

/-! ## Steps and the host keep it -/

theorem inv_stepEffect (hi : Inv s) (h : StepEffect s t) : Inv t := by
  cases h with
  | evaluates => exact inv_deliver_evalPorts hi.design_wf
  | holds => exact hi
  | loadsReset hr => exact inv_of_reg hi.design_wf hr
  | capturesUnknown hr => exact inv_of_reg hi.design_wf hr

theorem inv_driveInputs (hi : Inv s) (op : OpSelect) (a b : Word) : Inv (driveInputs op a b s) :=
  inv_of_unsettled hi.design_wf (driveInputs_settled s op a b)

theorem inv_driveReset (hi : Inv s) (r : Bool) : Inv (driveReset r s) :=
  inv_of_same_ports_and_wires hi rfl rfl rfl rfl rfl rfl rfl

theorem inv_driveClock (hi : Inv s) (c : Clk) (w : Bool) : Inv (driveClock c w s) :=
  inv_of_same_ports_and_wires hi rfl rfl rfl rfl rfl rfl rfl

theorem inv_losePower (hi : Inv s) : Inv (losePower s) :=
  inv_of_unsettled hi.design_wf (losePower_settled s)

theorem inv_sample {o : Output} (hi : Inv s) (h : sample s = .next (o, t)) : Inv t := by
  rcases sample_next_cases h with rfl | ⟨hs, rfl⟩
  · exact hi
  · exact inv_of_unsettled hi.design_wf hs

/-! ## The statements -/

/-- Settles O8, by cases on the effect of the step. -/
theorem stepKeepsInvariant : Obligations.StepKeepsInvariant :=
  fun _ _ hi h => inv_stepEffect hi (stepEffect_iff.mpr h)

/-- Settles O10, by induction on how the state is reached. -/
theorem reachableStatesHaveInvariant : Obligations.ReachableStatesHaveInvariant := by
  intro s hreach
  induction hreach with
  | start d hd => exact inv_reset_of_wf hd
  | step _ h hi => exact stepKeepsInvariant _ _ hi h
  | driveInputs op a b _ hi => exact inv_driveInputs hi op a b
  | driveReset r _ hi => exact inv_driveReset hi r
  | driveClock c w _ hi => exact inv_driveClock hi c w
  | sample o _ h hi => exact inv_sample hi h
  | losePower _ hi => exact inv_losePower hi

end Sys2Proof.Proofs.Invariant
end

section
/-!
PROOFS. The output register and the timing contract (10_state.md R26 to R28; 70_reset_and_hazards.md R161
to R164).
-/

namespace Sys2Proof.Proofs.OutputRegister

open Machine Stepping Sampling

variable {s t : State}

/-- A rising edge inside the window with `rst` low captures `eval` of the ports (10_state.md R26). -/
theorem step_of_captureEdge (hr : s.design.outReg = true) (hc : s.clk = .rises)
    (hw : s.windowMet = true) (hrst : s.rst = false) :
    step s = .next (captureOutputs (evalPorts s) s) := by
  rw [step_of_evaluates (.inr ⟨hc, hw, hrst⟩), deliver_of_reg _ hr]

/-- After any rising edge the registers hold a value (10_state.md R28; log 4). -/
theorem qDefined_after_risingEdge (hr : s.design.outReg = true) (hc : s.clk = .rises)
    (h : step s = .next t) : t.qDefined = true := by
  cases stepEffect_iff.mpr h with
  | evaluates => simp [deliver_of_reg _ hr]
  | holds _ hquiet => simp [hc] at hquiet
  | loadsReset => exact loadReset_qDefined s
  | capturesUnknown => exact captureUnknown_qDefined s

/-- Registers that hold `o` are read as `o`, and a step without an edge changes nothing (10_state.md
R26). -/
theorem sample_and_step_of_quiet {o : Output} (hr : s.design.outReg = true) (hq : s.qDefined = true)
    (hy : s.yQ = o.y) (he : s.eqQ = o.eq) (hc : s.clk = .quiet) :
    sample s = .next (o, s) ∧ step s = .next s :=
  ⟨by rw [sample_of_defined hr hq, hy, he], step_of_quiet hr hc⟩

/-- Settles O14: the reset edge loads `ZERO` and 0. -/
theorem resetEdgeLoadsResetValues : Obligations.ResetEdgeLoadsResetValues :=
  fun _ hr hc hw hrst => step_of_resetEdge hr hc hw hrst

/-- Settles O15: the capture edge, and the step without an edge. -/
theorem registerCapturesOnlyAtEdges : Obligations.RegisterCapturesOnlyAtEdges :=
  ⟨fun _ hr hc hw hrst => step_of_captureEdge hr hc hw hrst, fun _ hr hc => step_of_quiet hr hc⟩

/-- Settles O16: what the host drives leaves the captured registers alone, and so does a step without an
edge. -/
theorem registerLatencyIsOneEdge : Obligations.RegisterLatencyIsOneEdge := by
  intro s t op a b r w hr hc hw hrst hstep
  obtain rfl : captureOutputs (evalPorts s) s = t := by
    simpa [step_of_captureEdge hr hc hw hrst] using hstep
  have ⟨hread, hhold⟩ := sample_and_step_of_quiet (o := evalPorts s)
    (s := driveClock .quiet w (driveReset r (driveInputs op a b (captureOutputs (evalPorts s) s))))
    (by simpa using hr) (by simp) (by simp) (by simp) (by simp)
  exact ⟨_, _, rfl, hread, hhold, hread⟩

/-- Settles O17: a read faults exactly while the registers hold no value, which a loss of power begins and
a rising edge ends. -/
theorem readFaultsUntilFirstEdge : Obligations.ReadFaultsUntilFirstEdge := by
  refine ⟨fun s hr => ?_, fun s t hr hc hfault hstep => ?_, fun s t hr hc hstep => ?_, fun s hr => ?_⟩
  · exact sample_faults_iff.mpr ⟨by simpa using hr, losePower_qDefined s⟩
  · obtain rfl : s = t := by simpa [step_of_quiet hr hc] using hstep
    exact hfault
  · have ⟨hdesign, _⟩ := stepFrame s t hstep
    exact ⟨_, sample_of_defined (hdesign ▸ hr) (qDefined_after_risingEdge hr hc hstep)⟩
  · cases hs : s.settled with
    | false => exact ⟨_, _, sample_of_unsettled hr hs⟩
    | true => exact ⟨_, _, sample_of_settled hr hs⟩

/-- Settles O18: a step settles the wires at `evalPorts`, and driving the inputs unsettles them. -/
theorem settledOutputsReadEval : Obligations.SettledOutputsReadEval := by
  refine ⟨fun s t hr hstep => ?_, fun s op a b hr => ?_⟩
  · obtain rfl : deliver (evalPorts s) s = t := by simpa [step_of_evaluates (.inl hr)] using hstep
    have hsettled : (deliver (evalPorts s) s).settled = true := by simp [deliver_of_comb _ hr]
    simpa using sample_of_settled (by simpa using hr) hsettled
  · exact sample_of_unsettled (by simpa using hr) (driveInputs_settled s op a b)

end Sys2Proof.Proofs.OutputRegister
end

section
/-!
PROOFS. The `eq` output (10_state.md R21, R24; 40_representation.md R74).
-/

namespace Sys2Proof.Proofs.EqOutput

open Machine

/-- Decoding inverts the encoding (30_encoding.md R58). -/
theorem decode_eq_ok_iff (op : OpSelect) (i : Instr) : decode op = .ok i ↔ op = encode i := by
  cases i <;> revert op <;> decide

/-- Of the seven operations only EQ raises `eq` (40_representation.md R74). -/
theorem evalInstr_eq_iff (core : Word → Word → Word) (i : Instr) (a b : Word) :
    (evalInstr core i a b).eq = true ↔ i = .eq ∧ a = b := by
  cases i with
  | eq => simp [evalInstr, eqOutput, eqFlag]
  | _ => simp [evalInstr, mulOutput, divOutput, addOutput, subOutput, sqrtOutput, negOutput, noEqFlag]

/-- Settles O28, by what the select decodes to. -/
theorem eqOutputOnlyUnderEq : Obligations.EqOutputOnlyUnderEq := by
  intro core op a b
  have hselect : op = 0b110 ↔ decode op = .ok .eq := (decode_eq_ok_iff op .eq).symm
  rw [hselect]
  unfold eval
  cases decode op with
  | ok i => simpa using evalInstr_eq_iff core i a b
  | error e => cases e; simp [reservedOutput, noEqFlag]

end Sys2Proof.Proofs.EqOutput
end

section
/-!
PROOFS. Evaluating the same inputs twice (20_memory.md R44).
-/

namespace Sys2Proof.Proofs.Idempotence

open Machine Statements Stepping

/-- Of two deliveries in a row the second alone decides the state, in either form of the block. -/
@[simp] theorem deliver_deliver (o p : Output) (s : State) : deliver o (deliver p s) = deliver o s := by
  rcases deliver_cases p s with ⟨hr, hp⟩ | ⟨hr, hp⟩
  · rw [hp, deliver_of_comb o hr, deliver_of_comb o (by simpa using hr)]; rfl
  · rw [hp, deliver_of_reg o hr, deliver_of_reg o (by simpa using hr)]; rfl

/-- A delivery leaves alone what decides whether a step evaluates. -/
@[simp] theorem evaluates_deliver (o : Output) (s : State) : Evaluates (deliver o s) ↔ Evaluates s := by
  simp [Evaluates]

/-- Settles O12: the second step evaluates the same ports, and delivers over the first delivery. -/
theorem evaluationIsIdempotent : Obligations.EvaluationIsIdempotent := by
  intro s t hs hstep
  obtain rfl : deliver (evalPorts s) s = t := by simpa [step_of_evaluates hs] using hstep
  simpa using step_of_evaluates ((evaluates_deliver (evalPorts s) s).mpr hs)

end Sys2Proof.Proofs.Idempotence
end

section
/-!
PROOFS. Words as bytes in the host's memory (20_memory.md R42; log 12).
-/

namespace Sys2Proof.Proofs.HostBytes

open Machine

variable (o : ByteOrder)

/-! ## A word is its four bytes -/

/-- Bit `j` of byte `i` of a word built of bytes is bit `j` of the byte given for `i`. -/
theorem getLsbD_ofBytes (f : Fin 4 → BitVec 8) (i : Fin 4) {j : Nat} (hj : j < 8) :
    (ofBytes f).getLsbD (8 * i + j) = (f i).getLsbD j := by
  simp only [ofBytes, BitVec.getLsbD_append]
  fin_cases i <;> grind

@[simp] theorem byteOf_ofBytes (f : Fin 4 → BitVec 8) : byteOf (ofBytes f) = f := by
  funext i
  apply BitVec.eq_of_getLsbD_eq
  intro j hj
  simp [byteOf, hj, getLsbD_ofBytes f i hj]

/-- Words of equal bytes are equal: bit `k` is bit `k % 8` of byte `k / 8`. -/
theorem byteOf_injective : Function.Injective byteOf := by
  intro u w h
  apply BitVec.eq_of_getLsbD_eq
  intro k hk
  have hbyte := congrArg (BitVec.getLsbD · (k % 8)) (congrFun h ⟨k / 8, by omega⟩)
  have hmod : k % 8 < 8 := by omega
  simpa [byteOf, hmod, Nat.div_add_mod] using hbyte

@[simp] theorem ofBytes_byteOf (w : Word) : ofBytes (byteOf w) = w :=
  byteOf_injective (byteOf_ofBytes (byteOf w))

/-! ## What a load of four bytes reads -/

/-- The byte at address offset `i` is byte `o i` of the word loaded. -/
theorem loadWord_ofFn (g : Fin 4 → BitVec 8) :
    loadWord o (List.ofFn g) = some (ofBytes (g ∘ o.symm)) := by
  have hlength : (List.ofFn g).length = 4 := List.length_ofFn
  rw [loadWord, dif_pos hlength]
  congr 2
  funext k
  exact List.get_ofFn g _

/-- Four bytes are a function of the address offset. -/
theorem exists_ofFn_of_length {bytes : List (BitVec 8)} (h : bytes.length = 4) :
    ∃ g : Fin 4 → BitVec 8, List.ofFn g = bytes :=
  ⟨fun i => bytes.get (i.cast h.symm), by rw [← List.ofFn_congr h, List.ofFn_get]⟩

/-! ## Storing and loading -/

theorem loadWord_storeWord (w : Word) : loadWord o (storeWord o w) = some w := by
  have hbytes : (fun i => byteOf w (o i)) ∘ o.symm = byteOf w := by funext k; simp
  rw [storeWord, loadWord_ofFn, hbytes, ofBytes_byteOf]

theorem storeWord_ofBytes (g : Fin 4 → BitVec 8) :
    storeWord o (ofBytes (g ∘ o.symm)) = List.ofFn g := by
  simp [storeWord, byteOf_ofBytes]

/-- Settles O58: a permutation of the bytes and its inverse cancel, and a word is its four bytes. -/
theorem hostBytesRoundTrip : Obligations.HostBytesRoundTrip := by
  refine fun o => ⟨loadWord_storeWord o, fun bytes hlength => ?_⟩
  obtain ⟨g, rfl⟩ := exists_ofFn_of_length hlength
  exact ⟨ofBytes (g ∘ o.symm), loadWord_ofFn o g, storeWord_ofBytes o g⟩

end Sys2Proof.Proofs.HostBytes
end

section
/-!
PROOFS. The operation selects and the 67-bit input vectors (30_encoding.md R57, R58, R60, R63).
-/

namespace Sys2Proof.Proofs.Encoding

open Machine EqOutput

/-! ## Selects -/

@[simp] theorem decode_encode (i : Instr) : decode (encode i) = .ok i :=
  (decode_eq_ok_iff (encode i) i).mpr rfl

/-- Only the reserved select is rejected (30_encoding.md R60). -/
theorem decode_eq_error_iff (op : OpSelect) (e : DecodeError) :
    decode op = .error e ↔ op = reservedSelect := by
  cases e; revert op; decide

@[simp] theorem decode_reservedSelect : decode reservedSelect = .error .reservedSelect :=
  (decode_eq_error_iff reservedSelect .reservedSelect).mpr rfl

/-- Settles O1: each select of the table is the one its operation encodes to. -/
theorem selectsDecodeAsTabled : Obligations.SelectsDecodeAsTabled :=
  ⟨decode_encode .mul, decode_encode .div, decode_encode .add, decode_encode .sub,
    decode_encode .sqrt, decode_encode .neg, decode_encode .eq, decode_reservedSelect⟩

/-! ## The three parts of an input vector -/

@[simp] theorem vectorSelect_encodeVector (i : Instr) (a b : Word) :
    vectorSelect (encodeVector i a b) = encode i := by
  rw [vectorSelect, encodeVector, BitVec.extractLsb'_append_eq_of_le (by norm_num)]
  exact BitVec.extractLsb'_append_eq_left

@[simp] theorem vectorA_encodeVector (i : Instr) (a b : Word) :
    vectorA (encodeVector i a b) = a := by
  rw [vectorA, encodeVector, BitVec.extractLsb'_append_eq_of_le (by norm_num)]
  exact BitVec.extractLsb'_append_eq_right

@[simp] theorem vectorB_encodeVector (i : Instr) (a b : Word) :
    vectorB (encodeVector i a b) = b :=
  BitVec.extractLsb'_append_eq_right

/-- The three parts leave no bit of the vector out. -/
theorem append_vectorSelect_vectorA_vectorB (v : InputVector) :
    vectorSelect v ++ vectorA v ++ vectorB v = v := by
  unfold vectorSelect vectorA vectorB
  rw [BitVec.extractLsb'_append_extractLsb'_eq_extractLsb' (by norm_num),
    BitVec.extractLsb'_append_extractLsb'_eq_extractLsb' (by norm_num)]
  exact BitVec.extractLsb'_eq_self

/-- A vector encodes an evaluation exactly when its three parts are the evaluation's. -/
theorem encodeVector_eq_iff (i : Instr) (a b : Word) (v : InputVector) :
    encodeVector i a b = v ↔ encode i = vectorSelect v ∧ a = vectorA v ∧ b = vectorB v := by
  constructor
  · rintro rfl
    simp
  · rintro ⟨hop, rfl, rfl⟩
    rw [encodeVector, hop, append_vectorSelect_vectorA_vectorB]

/-! ## Decoding -/

/-- Decoding answers an evaluation exactly on the vector it encodes to (30_encoding.md R63). -/
theorem decodeVector_eq_ok_iff (v : InputVector) (e : Evaluation) :
    decodeVector v = .ok e ↔ encodeVector e.instr e.a e.b = v := by
  obtain ⟨i, a, b⟩ := e
  rw [encodeVector_eq_iff, eq_comm (a := encode i), ← decode_eq_ok_iff]
  unfold decodeVector
  cases decode (vectorSelect v) with
  | ok j => simp [eq_comm]
  | error err => simp

/-- The rejected vectors are those of the reserved select (30_encoding.md R60). -/
theorem decodeVector_eq_error_iff (v : InputVector) (err : DecodeError) :
    decodeVector v = .error err ↔ vectorSelect v = reservedSelect := by
  rw [← decode_eq_error_iff (vectorSelect v) err]
  unfold decodeVector
  cases decode (vectorSelect v) <;> simp

/-! ## Vectors as numbers -/

/-- The top three bits of a vector, as a number. -/
theorem toNat_vectorSelect (v : InputVector) : (vectorSelect v).toNat = v.toNat / 2 ^ 64 := by
  have hlt : v.toNat / 2 ^ 64 < 2 ^ 3 := by have := v.isLt; omega
  rw [vectorSelect, BitVec.extractLsb'_toNat, Nat.shiftRight_eq_div_pow, Nat.mod_eq_of_lt hlt]

theorem vectorSelect_eq_reservedSelect_iff (v : InputVector) :
    vectorSelect v = reservedSelect ↔ v.toNat / 2 ^ 64 = 7 := by
  rw [← toNat_vectorSelect, BitVec.toNat_eq]
  rfl

theorem toNat_append_eq_mul_add {m n : Nat} (x : BitVec m) (y : BitVec n) :
    (x ++ y).toNat = x.toNat * 2 ^ n + y.toNat := by
  rw [BitVec.toNat_append, ← Nat.shiftLeft_add_eq_or_of_lt y.isLt, Nat.shiftLeft_eq]

theorem toNat_encodeVector (i : Instr) (a b : Word) :
    (encodeVector i a b).toNat = (encode i).toNat * 2 ^ 64 + a.toNat * 2 ^ 32 + b.toNat := by
  rw [encodeVector, toNat_append_eq_mul_add, toNat_append_eq_mul_add]
  ring

/-- Settles O2: a vector is its three parts, and its select decodes unless it is the reserved one. -/
theorem inputVectorRoundTrip : Obligations.InputVectorRoundTrip :=
  ⟨fun i a b _ => (decodeVector_eq_ok_iff _ ⟨i, a, b⟩).mpr rfl,
    fun v e => (decodeVector_eq_ok_iff v e).mp,
    fun v => (decodeVector_eq_error_iff v _).trans (vectorSelect_eq_reservedSelect_iff v),
    toNat_encodeVector⟩

end Sys2Proof.Proofs.Encoding
end

section
/-!
PROOFS. The real numbers the non-sentinel words stand for (30_encoding.md R51, R55, R56).
-/

namespace Sys2Proof.Proofs.WordValue

open Machine Statements

variable {u w : Word}

theorem value_of_plain (h : Plain w) : value w = some (signedMagnitude w) := by
  have hzero : isZero w = false := beq_false_of_ne h.1
  have hnar : isNar w = false := beq_false_of_ne h.2
  simp [value, hzero, hnar]

/-- The magnitudes tell the fields apart, whatever the signs (30_encoding.md R56). -/
theorem abs_signedMagnitude_inj : |signedMagnitude u| = |signedMagnitude w| ↔ field u = field w := by
  rw [abs_signedMagnitude, abs_signedMagnitude, magnitude_strictMono.injective.eq_iff]
  exact s31_inj

theorem abs_signedMagnitude_lt_iff :
    |signedMagnitude u| < |signedMagnitude w| ↔ logField u < logField w := by
  rw [abs_signedMagnitude, abs_signedMagnitude, magnitude_strictMono.lt_iff_lt]

theorem signedMagnitude_ne_zero (w : Word) : signedMagnitude w ≠ 0 := by
  rw [← abs_pos, abs_signedMagnitude]
  exact magnitude_pos (logField w)

/-- The outer sign bit is the sign of the number (30_encoding.md R51). -/
theorem signedMagnitude_neg_iff (w : Word) : signedMagnitude w < 0 ↔ sign w = true := by
  have hpos := magnitude_pos (logField w)
  unfold signedMagnitude
  cases sign w
  · simpa using hpos.le
  · simpa using hpos

/-- Equal numbers have one sign and one magnitude, and so one word. -/
theorem signedMagnitude_injective : Function.Injective signedMagnitude := by
  intro u w h
  have hsign : sign u = sign w := by
    rw [Bool.eq_iff_iff, ← signedMagnitude_neg_iff, ← signedMagnitude_neg_iff, h]
  have hfield : field u = field w := abs_signedMagnitude_inj.mp (by rw [h])
  exact word_ext hsign hfield

/-- Settles O39: a non-sentinel word has its signed magnitude as value. -/
theorem wordsEncodeDistinctReals : Obligations.WordsEncodeDistinctReals := by
  intro u w hu hw
  rw [value_of_plain hu, value_of_plain hw]
  simpa [signedMagnitude_ne_zero] using signedMagnitude_injective.eq_iff

/-- Settles O40: the magnitude increases strictly with the signed field. -/
theorem magnitudeOrderIsFieldOrder : Obligations.MagnitudeOrderIsFieldOrder :=
  fun _ _ _ _ => ⟨abs_signedMagnitude_lt_iff, abs_signedMagnitude_inj⟩

end Sys2Proof.Proofs.WordValue
end

section
/-!
PROOFS. What the selects evaluate to: EQ, the reserved select, and the operations of `a` alone
(30_encoding.md R58 to R60, 40_representation.md R74).
-/

namespace Sys2Proof.Proofs.SelectedOutputs

open Machine Statements Stepping EqOutput Encoding

/-! ## `eval` by the select -/

@[simp] theorem eval_encode (core : Word → Word → Word) (i : Instr) (a b : Word) :
    eval core (encode i) a b = evalInstr core i a b := by
  simp [eval]

@[simp] theorem eval_reservedSelect (core : Word → Word → Word) (a b : Word) :
    eval core reservedSelect a b = reservedOutput := by
  simp [eval]

/-- An operation completes with the outputs of `evalInstr`, and its frame is that of `deliver`. -/
theorem completes_of_evalInstr {i : Instr} {w : State → Word} {e : State → Bool}
    (h : ∀ s : State, evalInstr (addCore s.design.addCore) i s.a s.b = ⟨w s, e s⟩) :
    Completes i w e := by
  intro s
  refine ⟨_, exec_eq_deliver i s, ?_⟩
  rw [h s]
  exact deliversTo_iff.mpr rfl

/-! ## EQ -/

theorem evalInstr_eq_output (core : Word → Word → Word) (a b : Word) :
    evalInstr core .eq a b = ⟨a, decide (a = b)⟩ := rfl

/-- Settles O26: EQ completes with `a` and the comparison of all 32 bits. -/
theorem eqResult : Obligations.EqResult :=
  ⟨decode_encode .eq, completes_of_evalInstr fun s => evalInstr_eq_output _ s.a s.b⟩

/-! ## The reserved select -/

/-- Settles O27: the step delivers the outputs of the reserved select, which read no operand. -/
theorem reservedSelectDrivesNar : Obligations.ReservedSelectDrivesNar := by
  intro s hop hs
  have hports : evalPorts s = ⟨NAR, false⟩ := by
    rw [evalPorts, hop]
    exact eval_reservedSelect _ s.a s.b
  refine ⟨_, step_of_evaluates hs, ?_⟩
  rw [hports]
  exact deliversTo_iff.mpr rfl

/-! ## SQRT and NEG -/

theorem evalInstr_sqrt (core : Word → Word → Word) (a b : Word) :
    evalInstr core .sqrt a b = sqrtOutput a := rfl

theorem evalInstr_neg (core : Word → Word → Word) (a b : Word) :
    evalInstr core .neg a b = negOutput a := rfl

/-- Settles O29: the outputs of SQRT and NEG are functions of `a`. -/
theorem unaryOperationsIgnoreB : Obligations.UnaryOperationsIgnoreB := by
  intro core a b b'
  have hsqrt (x : Word) : eval core 0b100 a x = sqrtOutput a :=
    (eval_encode core .sqrt a x).trans (evalInstr_sqrt core a x)
  have hneg (x : Word) : eval core 0b101 a x = negOutput a :=
    (eval_encode core .neg a x).trans (evalInstr_neg core a x)
  exact ⟨(hsqrt b).trans (hsqrt b').symm, (hneg b).trans (hneg b').symm⟩

end Sys2Proof.Proofs.SelectedOutputs
end

section
/-!
PROOFS. The pseudo-instructions of the host (30_encoding.md R64).
-/

namespace Sys2Proof.Proofs.PseudoInstructions

open Machine EqOutput SelectedOutputs

section Expansions

variable (core : Word → Word → Word) (a b : Word)

/-! ## What each kind of expansion obtains -/

theorem runExpansion_once (i : Instr) :
    runExpansion core (.evaluate i false) a b = evalInstr core i a b := rfl

theorem runExpansion_twice (i : Instr) :
    runExpansion core (.evaluate i true) a b = evalInstr core i a a := rfl

theorem runExpansion_move_y : (runExpansion core .move a b).y = a := rfl

theorem runExpansion_constant_y (w : Word) : (runExpansion core (.constant w) a b).y = w := rfl

/-! ## The wrappers -/

/-- A pseudo-instruction that expands to one operation leaves the operation's result. -/
theorem pseudoWord_of_expand_once {p : Pseudo} {i : Instr} (h : expand p = .evaluate i false) :
    pseudoWord core p a b = (evalInstr core i a b).y := by
  rw [pseudoWord, h, runExpansion_once]

theorem pseudoWord_of_expand_move {p : Pseudo} (h : expand p = .move) :
    pseudoWord core p a b = a := by
  rw [pseudoWord, h, runExpansion_move_y]

theorem pseudoWord_default : pseudoWord core .default a b = ZERO :=
  runExpansion_constant_y core a b defaultWord

/-- MOV reads its operand back from EQ's pass-through (40_representation.md R74). -/
theorem pseudoWord_mov : pseudoWord core .mov a b = a := by
  have hexpand : expand .mov = .evaluate .eq true := rfl
  rw [pseudoWord, hexpand, runExpansion_twice, evalInstr_eq_output]

theorem neFlag_eq_true_iff : neFlag core a b = true ↔ a ≠ b := by
  have hexpand : expand .ne = .evaluate .eq false := rfl
  have hflag := evalInstr_eq_iff core .eq a b
  rw [neFlag, hexpand, runExpansion_once, Bool.not_eq_true', ← Bool.not_eq_true, hflag]
  simp

end Expansions

/-- Settles O57: each expansion is one operation or one move of the host. -/
theorem pseudoInstructionsExpand : Obligations.PseudoInstructionsExpand :=
  fun core a b =>
    ⟨pseudoWord_of_expand_once core a b (i := .mul) rfl,
      pseudoWord_of_expand_once core a b (i := .div) rfl,
      pseudoWord_of_expand_once core a b (i := .add) rfl,
      pseudoWord_of_expand_once core a b (i := .sub) rfl,
      pseudoWord_of_expand_move core a b (p := .fromBits) rfl,
      pseudoWord_of_expand_move core a b (p := .toBits) rfl,
      pseudoWord_default core a b, pseudoWord_mov core a b, neFlag_eq_true_iff core a b⟩

end Sys2Proof.Proofs.PseudoInstructions
end

section
/-!
PROOFS. The `eq` output of EQ as a relation on words (40_representation.md R75).
-/

namespace Sys2Proof.Proofs.EqRelation

open Machine EqOutput

/-- Under EQ the `eq` output is equality of the two words, so R75 is that `=` is an equivalence. -/
theorem eval_eqSelect_eq_iff (core : Word → Word → Word) (a b : Word) :
    (eval core 0b110 a b).eq = true ↔ a = b :=
  (eqOutputOnlyUnderEq core 0b110 a b).trans (and_iff_right rfl)

/-- Settles O36: the laws of `=` on words, read through the `eq` output of EQ. -/
theorem eqIsEquivalence : Obligations.EqIsEquivalence := by
  intro core
  refine ⟨fun a => ?refl, fun a b => ?symm, fun a b c hab hbc => ?trans⟩
  case refl => exact (eval_eqSelect_eq_iff core a a).mpr rfl
  case symm => rw [Bool.eq_iff_iff, eval_eqSelect_eq_iff, eval_eqSelect_eq_iff, eq_comm]
  case trans =>
    rw [eval_eqSelect_eq_iff] at hab hbc ⊢
    exact hab.trans hbc

end Sys2Proof.Proofs.EqRelation
end

section
/-!
PROOFS. The wrapped arithmetic of signed fields (00_scope.md R8), and which words are sentinels
(30_encoding.md R53, R55).
-/

namespace Sys2Proof.Proofs.FieldArithmetic

open Machine Statements

/-! ## `wrap31` -/

theorem wrap31_add (m n : Int) : wrap31 (m + n) = wrap31 m + wrap31 n := BitVec.ofInt_add m n

theorem wrap31_sub (m n : Int) : wrap31 (m - n) = wrap31 m - wrap31 n := by
  rw [BitVec.eq_sub_iff_add_eq, ← wrap31_add, sub_add_cancel]

@[simp] theorem wrap31_logField (w : Word) : wrap31 (logField w) = field w := wrap31_s31 (field w)

/-- A number in the range of the signed fields does not wrap (00_scope.md R8). -/
theorem s31_wrap31_of_bounds {n : Int} (hlo : -2 ^ 30 ≤ n) (hhi : n < 2 ^ 30) : s31 (wrap31 n) = n :=
  (BitVec.toInt_ofInt n).trans (Int.bmod_eq_of_le (by simpa using hlo) (by simpa using hhi))

/-- Numbers of at most three half-ranges wrap to the boundary field from the two ends of the signed
range alone. -/
theorem wrap31_eq_boundaryField_iff {n : Int} (hlo : -(3 * 2 ^ 30) < n) (hhi : n < 3 * 2 ^ 30) :
    wrap31 n = boundaryField ↔ n = 2 ^ 30 ∨ n = -2 ^ 30 := by
  have hbmod : s31 (wrap31 n) = n.bmod (2 ^ 31) := BitVec.toInt_ofInt n
  have hboundary : s31 boundaryField = -2 ^ 30 := by decide
  rw [← s31_inj, hbmod, hboundary, Int.bmod_eq_iff (by decide)]
  omega

/-- The arithmetic right shift by one halves a signed field, rounding down (41_multiplicative.md R85). -/
theorem s31_sshiftRight_one (e : Field) : s31 (e.sshiftRight 1) = s31 e / 2 :=
  BitVec.toInt_sshiftRight.trans (Int.shiftRight_eq_div_pow _ 1)

/-! ## Sentinels -/

theorem isZero_iff (w : Word) : isZero w = true ↔ w = ZERO := beq_iff_eq

theorem isNar_iff (w : Word) : isNar w = true ↔ w = NAR := beq_iff_eq

theorem plain_iff (w : Word) : Plain w ↔ isBoundary w = false := by
  rw [← Bool.not_eq_true, isBoundary_iff, not_or]
  rfl

theorem ne_zero_of_plain {w : Word} (h : Plain w) : w ≠ ZERO := h.1

theorem ne_nar_of_plain {w : Word} (h : Plain w) : w ≠ NAR := h.2

theorem plain_iff_field_ne (w : Word) : Plain w ↔ field w ≠ boundaryField := by
  rw [plain_iff, isBoundary, beq_eq_false_iff_ne]

/-- A word whose signed field is above the most negative value is no sentinel (30_encoding.md R55). -/
theorem plain_of_lt_logField {w : Word} (h : -2 ^ 30 < logField w) : Plain w := by
  rw [plain_iff_field_ne]
  intro hf
  have hboundary : s31 boundaryField = -2 ^ 30 := by decide
  rw [logField, hf, hboundary] at h
  exact lt_irrefl _ h

theorem logField_bounds_of_plain {w : Word} (h : Plain w) :
    -2 ^ 30 + 1 ≤ logField w ∧ logField w ≤ 2 ^ 30 - 1 :=
  logField_bounds ((plain_iff w).mp h)

/-- Every word is one of the two sentinels or neither. -/
theorem zero_or_nar_or_plain (w : Word) : w = ZERO ∨ w = NAR ∨ Plain w := by
  by_cases hz : w = ZERO
  · exact .inl hz
  · by_cases hn : w = NAR
    · exact .inr (.inl hn)
    · exact .inr (.inr ⟨hz, hn⟩)

/-- The sign of a word of the boundary magnitude tells which sentinel it is (30_encoding.md R53). -/
theorem mkWord_boundaryField (s : Bool) : mkWord s boundaryField = if s then NAR else ZERO := by
  cases s
  · exact zero_eq_mkWord.symm
  · exact nar_eq_mkWord.symm

end Sys2Proof.Proofs.FieldArithmetic
end

section
/-!
PROOFS. What MUL, DIV and SQRT answer (41_multiplicative.md R80, R83, R85).
-/

namespace Sys2Proof.Proofs.MulDivSqrt

open Machine Statements Encoding SelectedOutputs FieldArithmetic

/-! ## The raw results -/

section RawResults

variable (a b : Word)

@[simp] theorem sign_rawMul : sign (rawMul a b) = (sign a ^^ sign b) := sign_mkWord _ _

@[simp] theorem sign_rawDiv : sign (rawDiv a b) = (sign a ^^ sign b) := sign_mkWord _ _

@[simp] theorem sign_rawSqrt : sign (rawSqrt a) = false := sign_mkWord _ _

@[simp] theorem field_rawMul : field (rawMul a b) = field a + field b := field_mkWord _ _

@[simp] theorem field_rawDiv : field (rawDiv a b) = field a - field b := field_mkWord _ _

/-- Read as signed fields, the raw sum wraps (41_multiplicative.md R80). -/
theorem field_rawMul_eq_wrap31 : field (rawMul a b) = wrap31 (logField a + logField b) := by
  rw [field_rawMul, wrap31_add, wrap31_logField, wrap31_logField]

/-- Read as signed fields, the raw difference wraps (41_multiplicative.md R83). -/
theorem field_rawDiv_eq_wrap31 : field (rawDiv a b) = wrap31 (logField a - logField b) := by
  rw [field_rawDiv, wrap31_sub, wrap31_logField, wrap31_logField]

/-- The raw square root has the floor of half the signed field (41_multiplicative.md R85). -/
theorem logField_rawSqrt : logField (rawSqrt a) = logField a / 2 := by
  rw [logField, rawSqrt, field_mkWord, s31_sshiftRight_one, logField]

theorem field_rawSqrt_eq_wrap31 : field (rawSqrt a) = wrap31 (logField a / 2) := by
  rw [← logField_rawSqrt, wrap31_logField]

theorem rawMul_eq_mkWord :
    rawMul a b = mkWord (sign a ^^ sign b) (wrap31 (logField a + logField b)) := by
  rw [← mkWord_sign_field (rawMul a b), sign_rawMul, field_rawMul_eq_wrap31]

theorem rawDiv_eq_mkWord :
    rawDiv a b = mkWord (sign a ^^ sign b) (wrap31 (logField a - logField b)) := by
  rw [← mkWord_sign_field (rawDiv a b), sign_rawDiv, field_rawDiv_eq_wrap31]

theorem rawSqrt_eq_mkWord : rawSqrt a = mkWord false (wrap31 (logField a / 2)) := by
  rw [← mkWord_sign_field (rawSqrt a), sign_rawSqrt, field_rawSqrt_eq_wrap31]

/-! ## The overrides -/

theorem mulWord_eq_ite : mulWord a b =
    if a = NAR ∨ b = NAR then NAR else if a = ZERO ∨ b = ZERO then ZERO else rawMul a b := by
  simp only [mulWord, Bool.or_eq_true, isNar_iff, isZero_iff]

theorem divWord_eq_ite : divWord a b =
    if a = NAR ∨ b = NAR ∨ b = ZERO then NAR else if a = ZERO then ZERO else rawDiv a b := by
  simp only [divWord, Bool.or_eq_true, isNar_iff, isZero_iff, or_assoc]

theorem sqrtWord_eq_ite : sqrtWord a =
    if a = NAR ∨ sign a = true then NAR else if a = ZERO then ZERO else rawSqrt a := by
  simp only [sqrtWord, Bool.or_eq_true, isNar_iff, isZero_iff]

end RawResults

/-! ## The decision lists of the operations -/

/-- Settles O20: the overrides of MUL, and its raw result as a wrapped sum. -/
theorem mulResult : Obligations.MulResult := by
  refine ⟨decode_encode .mul, completes_of_evalInstr fun s => ?_⟩
  have hword := mulWord_eq_ite s.a s.b
  rw [rawMul_eq_mkWord] at hword
  exact congrArg (Output.mk · false) hword

/-- Settles O21: the overrides of DIV, and its raw result as a wrapped difference. -/
theorem divResult : Obligations.DivResult := by
  refine ⟨decode_encode .div, completes_of_evalInstr fun s => ?_⟩
  have hword := divWord_eq_ite s.a s.b
  rw [rawDiv_eq_mkWord] at hword
  exact congrArg (Output.mk · false) hword

/-- Settles O22: the overrides of SQRT, and its raw result as a halved field. -/
theorem sqrtResult : Obligations.SqrtResult := by
  refine ⟨decode_encode .sqrt, completes_of_evalInstr fun s => ?_⟩
  have hword := sqrtWord_eq_ite s.a
  rw [rawSqrt_eq_mkWord] at hword
  exact congrArg (Output.mk · false) hword

end Sys2Proof.Proofs.MulDivSqrt
end

section
/-!
PROOFS. The laws of MUL, DIV and SQRT (41_multiplicative.md R81, R82, R84, R86).
-/

namespace Sys2Proof.Proofs.MulDivSqrtLaws

open Machine Statements FieldArithmetic MulDivSqrt WordValue

variable {a b x : Word}

/-! ## The results by the kind of the operands -/

@[simp] theorem mulWord_nar_left (b : Word) : mulWord NAR b = NAR := by simp [mulWord_eq_ite]

@[simp] theorem mulWord_nar_right (a : Word) : mulWord a NAR = NAR := by simp [mulWord_eq_ite]

theorem mulWord_zero_left (h : b ≠ NAR) : mulWord ZERO b = ZERO := by
  have hne : ZERO ≠ NAR := by decide
  simp [mulWord_eq_ite, h, hne]

theorem mulWord_comm (a b : Word) : mulWord a b = mulWord b a := by
  have hraw : rawMul a b = rawMul b a :=
    word_ext (by simp [Bool.xor_comm]) (by simp [BitVec.add_comm])
  simp only [mulWord_eq_ite, hraw, or_comm]

theorem mulWord_of_plain (ha : Plain a) (hb : Plain b) : mulWord a b = rawMul a b := by
  rw [mulWord_eq_ite, if_neg (not_or.mpr ⟨ne_nar_of_plain ha, ne_nar_of_plain hb⟩),
    if_neg (not_or.mpr ⟨ne_zero_of_plain ha, ne_zero_of_plain hb⟩)]

@[simp] theorem divWord_nar_left (b : Word) : divWord NAR b = NAR := by simp [divWord_eq_ite]

@[simp] theorem divWord_zero_right (a : Word) : divWord a ZERO = NAR := by simp [divWord_eq_ite]

theorem divWord_zero_left (hb : Plain b) : divWord ZERO b = ZERO := by
  have hne : ZERO ≠ NAR := by decide
  simp [divWord_eq_ite, hne, ne_nar_of_plain hb, ne_zero_of_plain hb]

theorem divWord_of_plain (ha : Plain a) (hb : Plain b) : divWord a b = rawDiv a b := by
  simp [divWord_eq_ite, ne_nar_of_plain ha, ne_zero_of_plain ha, ne_nar_of_plain hb,
    ne_zero_of_plain hb]

theorem sqrtWord_of_sign (h : sign a = true) : sqrtWord a = NAR := by simp [sqrtWord_eq_ite, h]

@[simp] theorem sqrtWord_zero : sqrtWord ZERO = ZERO := by decide

theorem sqrtWord_of_plain (ha : Plain a) (hs : sign a = false) : sqrtWord a = rawSqrt a := by
  simp [sqrtWord_eq_ite, hs, ne_nar_of_plain ha, ne_zero_of_plain ha]

/-! ## Landing on a sentinel -/

/-- A raw product or quotient of the boundary magnitude is ZERO for equal signs and NAR for different
signs (41_multiplicative.md R81, R84). -/
theorem eq_sentinel_of_field {w : Word} (hs : sign w = (sign a ^^ sign b))
    (hf : field w = boundaryField) : w = if sign a = sign b then ZERO else NAR := by
  rw [← mkWord_sign_field w, hs, hf, mkWord_boundaryField]
  cases sign a <;> cases sign b <;> rfl

/-- Settles O30: the sum of two non-sentinel fields is short of a second wrap, and MUL keeps the raw
product. -/
theorem mulLandsOnSentinel : Obligations.MulLandsOnSentinel := by
  refine ⟨fun a b ha hb => ⟨?lands, fun hf => ?kept⟩, by decide, by decide, by decide⟩
  case lands =>
    have ha' := logField_bounds_of_plain ha
    have hb' := logField_bounds_of_plain hb
    rw [field_rawMul_eq_wrap31]
    exact wrap31_eq_boundaryField_iff (by omega) (by omega)
  case kept => exact (mulWord_of_plain ha hb).trans (eq_sentinel_of_field (sign_rawMul a b) hf)

/-- Settles O31: the difference of two non-sentinel fields is short of a second wrap, and DIV keeps the
raw quotient. -/
theorem divLandsOnSentinel : Obligations.DivLandsOnSentinel := by
  refine ⟨fun a b ha hb => ⟨?lands, fun hf => ?kept⟩, by decide, by decide, by decide⟩
  case lands =>
    have ha' := logField_bounds_of_plain ha
    have hb' := logField_bounds_of_plain hb
    rw [field_rawDiv_eq_wrap31]
    exact wrap31_eq_boundaryField_iff (by omega) (by omega)
  case kept => exact (divWord_of_plain ha hb).trans (eq_sentinel_of_field (sign_rawDiv a b) hf)

/-! ## MUL over the reals -/

/-- While the field does not wrap, the raw product encodes the product (41_multiplicative.md R82). -/
theorem signedMagnitude_rawMul (h : logField (rawMul a b) = logField a + logField b) :
    signedMagnitude (rawMul a b) = signedMagnitude a * signedMagnitude b := by
  rw [signedMagnitude, signedMagnitude, signedMagnitude, sign_rawMul, h, magnitude_add]
  cases sign a <;> cases sign b <;> simp

theorem value_mulWord_of_bounds (ha : Plain a) (hb : Plain b)
    (hlo : -2 ^ 30 + 1 ≤ logField a + logField b) (hhi : logField a + logField b ≤ 2 ^ 30 - 1) :
    value (mulWord a b) = some (signedMagnitude a * signedMagnitude b) := by
  have hlog : logField (rawMul a b) = logField a + logField b := by
    rw [logField, field_rawMul_eq_wrap31]
    exact s31_wrap31_of_bounds (by omega) (by omega)
  have hplain : Plain (rawMul a b) := plain_of_lt_logField (by omega)
  rw [mulWord_of_plain ha hb, value_of_plain hplain, signedMagnitude_rawMul hlog]

/-- Settles O32: the fields add, and magnitudes multiply as their fields add. -/
theorem mulLaws : Obligations.MulLaws := by
  refine ⟨mulWord_comm, fun a b => ⟨?unsigned, field_rawMul_eq_wrap31 a b⟩,
    fun a b => value_mulWord_of_bounds, fun a => ⟨mulWord_nar_right a, mulWord_nar_left a⟩,
    fun a ha => ⟨?zero, mulWord_zero_left ha⟩⟩
  case unsigned => rw [field_rawMul, BitVec.toNat_add]
  case zero => exact (mulWord_comm a ZERO).trans (mulWord_zero_left ha)

/-! ## ONE, -1 and equal operands -/

@[simp] theorem sign_one : sign ONE = false := by decide

@[simp] theorem field_one : field ONE = 0 := by decide

@[simp] theorem sign_signBit : sign signBit = true := by decide

@[simp] theorem field_signBit : field signBit = 0 := by decide

theorem plain_one : Plain ONE := by unfold Plain; decide

theorem plain_signBit : Plain signBit := by unfold Plain; decide

theorem mulWord_one_right (x : Word) : mulWord x ONE = x := by
  obtain rfl | rfl | hx := zero_or_nar_or_plain x
  · exact mulWord_zero_left (ne_nar_of_plain plain_one)
  · exact mulWord_nar_left ONE
  · rw [mulWord_of_plain hx plain_one]
    exact word_ext (by simp) (by simp)

theorem divWord_one_right (x : Word) : divWord x ONE = x := by
  obtain rfl | rfl | hx := zero_or_nar_or_plain x
  · exact divWord_zero_left plain_one
  · exact divWord_nar_left ONE
  · rw [divWord_of_plain hx plain_one]
    exact word_ext (by simp) (by simp)

/-- The word of -1 is the sign bit alone, so MUL by it flips the sign of a non-sentinel. -/
theorem mulWord_signBit_left (x : Word) : mulWord signBit x = negWord x := by
  obtain rfl | rfl | hx := zero_or_nar_or_plain x
  · decide
  · decide
  · have hneg : negWord x = flipSign x := by simp [negWord, (plain_iff x).mp hx]
    rw [mulWord_of_plain plain_signBit hx, hneg]
    exact word_ext (by simp) (by simp)

theorem mulWord_self (hx : Plain x) : mulWord x x = mkWord false (wrap31 (2 * logField x)) := by
  rw [mulWord_of_plain hx hx, rawMul_eq_mkWord, Bool.xor_self, two_mul]

theorem divWord_self (hx : Plain x) : divWord x x = ONE := by
  rw [divWord_of_plain hx hx, rawDiv_eq_mkWord, Bool.xor_self, sub_self]
  decide

theorem divWord_one_left (hx : Plain x) :
    divWord ONE x = mkWord (sign x) (wrap31 (-logField x)) := by
  have hlog : logField ONE = 0 := by decide
  rw [divWord_of_plain plain_one hx, rawDiv_eq_mkWord, sign_one, hlog, Bool.false_xor, zero_sub]

/-- The fields of the non-sentinels are symmetric about 0, so a reciprocal does not wrap. -/
theorem logField_divWord_one_left (hx : Plain x) : logField (divWord ONE x) = -logField x := by
  have hbounds := logField_bounds_of_plain hx
  rw [divWord_one_left hx, logField, field_mkWord]
  exact s31_wrap31_of_bounds (by omega) (by omega)

/-- Settles O33: ONE has field 0 and sign 0, and -1 has field 0 and sign 1. -/
theorem mulDivCornerCases : Obligations.MulDivCornerCases :=
  ⟨fun x => ⟨mulWord_one_right x, (mulWord_comm ONE x).trans (mulWord_one_right x),
      divWord_one_right x⟩,
    mulWord_signBit_left,
    fun _ hx => ⟨mulWord_self hx, divWord_self hx, divWord_one_left hx, logField_divWord_one_left hx⟩,
    divWord_zero_right⟩

/-! ## SQRT -/

/-- Half a signed field is in the inner half of the range (41_multiplicative.md R86). -/
theorem logField_rawSqrt_bounds (a : Word) :
    -2 ^ 29 ≤ logField (rawSqrt a) ∧ logField (rawSqrt a) ≤ 2 ^ 29 - 1 := by
  have hbounds : -2 ^ 30 ≤ logField a ∧ logField a < 2 ^ 30 := s31_bounds (field a)
  rw [logField_rawSqrt]
  omega

theorem plain_rawSqrt (a : Word) : Plain (rawSqrt a) :=
  plain_of_lt_logField (by have := logField_rawSqrt_bounds a; omega)

theorem plain_of_sign_false (hs : sign a = false) (hz : a ≠ ZERO) : Plain a := by
  refine ⟨hz, ?_⟩
  rintro rfl
  exact absurd hs (by decide)

/-- The three results of SQRT, by the sign and ZERO (41_multiplicative.md R85). -/
theorem sqrtWord_cases (a : Word) :
    (sign a = true ∧ sqrtWord a = NAR) ∨ (a = ZERO ∧ sqrtWord a = ZERO) ∨
      (sign a = false ∧ a ≠ ZERO ∧ sqrtWord a = rawSqrt a) := by
  cases hs : sign a
  case true => exact .inl ⟨rfl, sqrtWord_of_sign hs⟩
  case false =>
    by_cases hz : a = ZERO
    · exact .inr (.inl ⟨hz, hz ▸ sqrtWord_zero⟩)
    · exact .inr (.inr ⟨rfl, hz, sqrtWord_of_plain (plain_of_sign_false hs hz) hs⟩)

theorem sqrtWord_eq_nar_iff (a : Word) : sqrtWord a = NAR ↔ sign a = true := by
  obtain ⟨hs, h⟩ | ⟨rfl, h⟩ | ⟨hs, -, h⟩ := sqrtWord_cases a
  · simp [h, hs]
  · decide
  · simp [h, hs, ne_nar_of_plain (plain_rawSqrt a)]

theorem sqrtWord_eq_zero_iff (a : Word) : sqrtWord a = ZERO ↔ a = ZERO := by
  obtain ⟨hs, h⟩ | ⟨rfl, h⟩ | ⟨-, hz, h⟩ := sqrtWord_cases a
  · have hne : NAR ≠ ZERO := by decide
    have ha : a ≠ ZERO := by
      rintro rfl
      exact absurd hs (by decide)
    simp [h, hne, ha]
  · simp
  · simp [h, hz, ne_zero_of_plain (plain_rawSqrt a)]

/-- The square of SQRT has twice the floor of half the field (41_multiplicative.md R86). -/
theorem mulWord_sqrtWord_self (hs : sign a = false) (hz : a ≠ ZERO) :
    mulWord (sqrtWord a) (sqrtWord a) = mkWord false (wrap31 (2 * (logField a / 2))) := by
  rw [sqrtWord_of_plain (plain_of_sign_false hs hz) hs, mulWord_self (plain_rawSqrt a),
    logField_rawSqrt]

theorem mulWord_sqrtWord_self_of_even (hs : sign a = false) (hz : a ≠ ZERO)
    (h : logField a % 2 = 0) : mulWord (sqrtWord a) (sqrtWord a) = a := by
  have hdouble : 2 * (logField a / 2) = logField a := by omega
  rw [mulWord_sqrtWord_self hs hz, hdouble, wrap31_logField, ← hs, mkWord_sign_field]

theorem mulWord_sqrtWord_self_of_odd (hs : sign a = false) (hz : a ≠ ZERO)
    (h : logField a % 2 = 1) :
    mulWord (sqrtWord a) (sqrtWord a) = mkWord false (wrap31 (logField a - 1)) := by
  have hdouble : 2 * (logField a / 2) = logField a - 1 := by omega
  rw [mulWord_sqrtWord_self hs hz, hdouble]

/-- The wrapped field one below a word's own is another field, so an odd field does not come back. -/
theorem mkWord_wrap31_sub_one_ne (s : Bool) (a : Word) : mkWord s (wrap31 (logField a - 1)) ≠ a := by
  intro h
  have hf : field a - wrap31 1 = field a := by
    rw [← wrap31_logField a, ← wrap31_sub, ← field_mkWord s (wrap31 _), h, wrap31_logField]
  have hone : wrap31 1 = 1 := by decide
  rw [hone] at hf
  bv_omega

theorem mulWord_sqrtWord_self_eq_iff (hs : sign a = false) (hz : a ≠ ZERO) :
    mulWord (sqrtWord a) (sqrtWord a) = a ↔ logField a % 2 = 0 := by
  refine ⟨fun h => ?_, mulWord_sqrtWord_self_of_even hs hz⟩
  by_contra hodd
  rw [mulWord_sqrtWord_self_of_odd hs hz (by omega)] at h
  exact mkWord_wrap31_sub_one_ne false a h

/-- Settles O34: SQRT halves the field and squaring doubles it, which loses the field's low bit. -/
theorem sqrtLaws : Obligations.SqrtLaws := by
  refine ⟨fun a => ?range, fun a => ⟨sqrtWord_eq_nar_iff a, sqrtWord_eq_zero_iff a⟩,
    fun a hs hz => ⟨mulWord_sqrtWord_self_eq_iff hs hz, mulWord_sqrtWord_self_of_odd hs hz⟩,
    by decide, by decide⟩
  case range =>
    obtain ⟨hlo, hhi⟩ := logField_rawSqrt_bounds a
    exact ⟨hlo, hhi, (plain_iff_field_ne _).mp (plain_rawSqrt a)⟩

end Sys2Proof.Proofs.MulDivSqrtLaws
end

section
/-!
PROOFS. NEG: what it answers, and its laws (42_additive.md R117, R118).
-/

namespace Sys2Proof.Proofs.Negation

open Machine Statements Encoding SelectedOutputs FieldArithmetic

variable {a : Word}

/-! ## The flipped word -/

theorem flipSign_eq_mkWord (a : Word) : flipSign a = mkWord (!sign a) (field a) :=
  word_ext (by simp) (by simp)

@[simp] theorem flipSign_flipSign (a : Word) : flipSign (flipSign a) = a :=
  word_ext (by simp) (by simp)

theorem flipSign_ne (a : Word) : flipSign a ≠ a := by
  intro h
  have hsign := congrArg sign h
  simp at hsign

theorem plain_flipSign (h : Plain a) : Plain (flipSign a) := by
  rw [plain_iff_field_ne] at h ⊢
  rwa [field_flipSign]

/-! ## NEG by the kind of the operand -/

@[simp] theorem negWord_zero : negWord ZERO = ZERO := by decide

@[simp] theorem negWord_nar : negWord NAR = NAR := by decide

theorem negWord_of_plain (h : Plain a) : negWord a = flipSign a := by
  simp [negWord, (plain_iff a).mp h]

theorem negWord_eq_ite (a : Word) :
    negWord a = if a = ZERO ∨ a = NAR then a else mkWord (!sign a) (field a) := by
  simp only [negWord, isBoundary_iff, flipSign_eq_mkWord]

theorem negWord_negWord (a : Word) : negWord (negWord a) = a := by
  obtain rfl | rfl | ha := zero_or_nar_or_plain a
  · simp
  · simp
  · rw [negWord_of_plain ha, negWord_of_plain (plain_flipSign ha), flipSign_flipSign]

/-! ## The statements -/

/-- Settles O25: the sentinels are unchanged, and every other word has its sign flipped. -/
theorem negResult : Obligations.NegResult :=
  ⟨decode_encode .neg, completes_of_evalInstr fun s => congrArg (Output.mk · false) (negWord_eq_ite s.a)⟩

/-- Settles O35: flipping the sign twice gives the word back, and never changes a field. -/
theorem negLaws : Obligations.NegLaws := by
  refine ⟨negWord_negWord, negWord_zero, negWord_nar, by decide, fun x hx => ?_⟩
  rw [negWord_of_plain hx]
  exact ⟨plain_flipSign hx, flipSign_ne x⟩

end Sys2Proof.Proofs.Negation
end

section
/-!
PROOFS. ADD and SUB before and around the `ADD_CORE`: the ordered overrides, exact cancellation, and what
every conforming core makes of them (42_additive.md R100 to R103, R116).
-/

namespace Sys2Proof.Proofs.Addition

open Machine Statements Encoding SelectedOutputs FieldArithmetic Negation

variable {a b : Word} (core : Word → Word → Word)

/-! ## Exact cancellation -/

/-- Two words cancel when they have one field and different signs (30_encoding.md R56). -/
theorem eq_flipSign_iff : a = flipSign b ↔ field a = field b ∧ sign a ≠ sign b := by
  constructor
  · rintro rfl
    simp
  · rintro ⟨hf, hs⟩
    exact word_ext (by simpa using Bool.eq_not_of_ne hs) (by simpa using hf)

theorem eq_flipSign_comm : a = flipSign b ↔ b = flipSign a := by
  rw [eq_flipSign_iff, eq_flipSign_iff, eq_comm (a := field a), ne_comm]

/-- The domain of an `ADD_CORE`: no sentinel, and no exact cancellation (42_additive.md R101). -/
theorem inAddDomain_iff : inAddDomain a b = true ↔ Plain a ∧ Plain b ∧ a ≠ flipSign b := by
  simp only [inAddDomain, plain_iff, Bool.and_eq_true, Bool.not_eq_true', bne_iff_ne, and_assoc]

theorem inAddDomain_comm (h : inAddDomain a b = true) : inAddDomain b a = true := by
  obtain ⟨ha, hb, hne⟩ := inAddDomain_iff.mp h
  exact inAddDomain_iff.mpr ⟨hb, ha, mt eq_flipSign_comm.mp hne⟩

/-! ## The overrides of ADD -/

theorem addWord_eq_ite (a b : Word) : addWord core a b =
    if a = NAR ∨ b = NAR then NAR else if a = ZERO then b else if b = ZERO then a
    else if a = flipSign b then ZERO else core a b := by
  simp only [addWord, Bool.or_eq_true, isNar_iff, isZero_iff, beq_iff_eq]

@[simp] theorem addWord_nar_left (b : Word) : addWord core NAR b = NAR := by simp [addWord_eq_ite]

@[simp] theorem addWord_nar_right (a : Word) : addWord core a NAR = NAR := by simp [addWord_eq_ite]

/-- ZERO is neutral: it passes NAR on too (42_additive.md R100). -/
@[simp] theorem addWord_zero_left (b : Word) : addWord core ZERO b = b := by
  have hne : ZERO ≠ NAR := by decide
  by_cases hb : b = NAR
  · rw [hb, addWord_nar_right]
  · simp [addWord_eq_ite, hne, hb]

@[simp] theorem addWord_zero_right (a : Word) : addWord core a ZERO = a := by
  have hne : ZERO ≠ NAR := by decide
  by_cases ha : a = NAR
  · rw [ha, addWord_nar_left]
  · by_cases hz : a = ZERO
    · rw [hz, addWord_zero_left]
    · simp [addWord_eq_ite, hne, ha, hz]

theorem addWord_of_cancel (ha : Plain a) (h : b = flipSign a) : addWord core a b = ZERO := by
  have hb : Plain b := h ▸ plain_flipSign ha
  rw [addWord_eq_ite, if_neg (not_or.mpr ⟨ne_nar_of_plain ha, ne_nar_of_plain hb⟩),
    if_neg (ne_zero_of_plain ha), if_neg (ne_zero_of_plain hb), if_pos (eq_flipSign_comm.mp h)]

/-- On its domain the core's result is delivered as it stands (42_additive.md R100). -/
theorem addWord_of_inAddDomain (h : inAddDomain a b = true) : addWord core a b = core a b := by
  obtain ⟨ha, hb, hne⟩ := inAddDomain_iff.mp h
  rw [addWord_eq_ite, if_neg (not_or.mpr ⟨ne_nar_of_plain ha, ne_nar_of_plain hb⟩),
    if_neg (ne_zero_of_plain ha), if_neg (ne_zero_of_plain hb), if_neg hne]

/-- ADD is commutative wherever its core is (42_additive.md R102). -/
theorem addWord_comm (hcore : ∀ a b, inAddDomain a b = true → core a b = core b a) (a b : Word) :
    addWord core a b = addWord core b a := by
  obtain rfl | rfl | ha := zero_or_nar_or_plain a
  · simp
  · simp
  obtain rfl | rfl | hb := zero_or_nar_or_plain b
  · simp
  · simp
  by_cases hne : a = flipSign b
  · rw [addWord_of_cancel core ha (eq_flipSign_comm.mp hne), addWord_of_cancel core hb hne]
  · have hdom : inAddDomain a b = true := inAddDomain_iff.mpr ⟨ha, hb, hne⟩
    rw [addWord_of_inAddDomain core hdom, addWord_of_inAddDomain core (inAddDomain_comm hdom),
      hcore a b hdom]

/-! ## The overrides of SUB -/

/-- SUB's overrides, written for `b` itself (42_additive.md R116). -/
theorem subWord_eq_ite (a b : Word) : subWord core a b =
    if a = NAR ∨ b = NAR then NAR else if b = ZERO then a
    else if a = ZERO then mkWord (!sign b) (field b) else if a = b then ZERO
    else core a (mkWord (!sign b) (field b)) := by
  obtain rfl | rfl | hb := zero_or_nar_or_plain b
  · have hne : ZERO ≠ NAR := by decide
    by_cases ha : a = NAR
    · simp [subWord, ha]
    · simp [subWord, ha, hne]
  · simp [subWord]
  · rw [subWord, negWord_of_plain hb, addWord_eq_ite, flipSign_flipSign, ← flipSign_eq_mkWord]
    simp [ne_nar_of_plain hb, ne_zero_of_plain hb, ne_nar_of_plain (plain_flipSign hb),
      ne_zero_of_plain (plain_flipSign hb)]

/-! ## The statements -/

/-- Settles O23: the decision list of ADD, the cancellation as equal fields and different signs. -/
theorem addResult : Obligations.AddResult := by
  refine ⟨decode_encode .add, completes_of_evalInstr fun s => ?_⟩
  have hword := addWord_eq_ite (addCore s.design.addCore) s.a s.b
  simp only [eq_flipSign_iff] at hword
  exact congrArg (Output.mk · false) hword

/-- Settles O24: the decision list of SUB. -/
theorem subResult : Obligations.SubResult :=
  ⟨decode_encode .sub, completes_of_evalInstr fun s =>
    congrArg (Output.mk · false) (subWord_eq_ite (addCore s.design.addCore) s.a s.b)⟩

/-- Settles O38: NEG leaves ZERO alone, ZERO is neutral in ADD, and a word cancels its negation. -/
theorem subCornerCases : Obligations.SubCornerCases := by
  refine fun core => ⟨fun a _ => ?right, fun b _ => addWord_zero_left core (negWord b), fun a ha => ?self,
    ?zeros⟩
  case right => exact (congrArg (addWord core a) negWord_zero).trans (addWord_zero_right core a)
  case self => exact addWord_of_cancel core ha (negWord_of_plain ha)
  case zeros => exact (congrArg (addWord core ZERO) negWord_zero).trans (addWord_zero_left core ZERO)

/-- Two negative words of the domain have a negative sum under every conforming core (42_additive.md
R103). -/
theorem sign_addWord_of_negative {core : Word → Word → Word} (hcore : Conforms core)
    (h : inAddDomain a b = true) (ha : sign a = true) (hb : sign b = true) :
    sign (addWord core a b) = true := by
  rw [addWord_of_inAddDomain core h, hcore.sign_dominant a b h]
  obtain ⟨hdom, -⟩ | ⟨hdom, -⟩ := dominant_minor a b
  · rw [hdom, ha]
  · rw [hdom, hb]

/-- Settles O42: the operands of S5 are negative, and the result it claims is not. -/
theorem everyConformingCoreRejectsS5 : Obligations.EveryConformingCoreRejectsS5 := by
  refine fun core hcore => ⟨addWord_comm core hcore.comm, fun a b => sign_addWord_of_negative hcore, ?_⟩
  intro hS5
  have hsign := sign_addWord_of_negative hcore (a := 0xDEADBEEF) (b := 0xBEEFDEAD) (by decide)
    (by decide) (by decide)
  rw [hS5] at hsign
  exact absurd hsign (by decide)

end Sys2Proof.Proofs.Addition
end

section
/-!
PROOFS. The field of the `N`-th root of 2: coordinates of magnitudes over the rationals, and how near to
0 an integer combination of magnitudes can come (42_additive.md R112 to R114; log 11).
-/

namespace Sys2Proof.Proofs.RootOfTwo

open Machine Polynomial

/-! ## Magnitudes as powers -/

theorem scale_nat : Config.scale = 2 ^ 23 := rfl

theorem scale_int : (Config.scale : ℤ) = 2 ^ 23 := rfl

theorem scale_real : (Config.scale : ℝ) = 2 ^ 23 := by rw [scale_nat, Nat.cast_pow, Nat.cast_ofNat]

theorem magnitude_natCast (n : ℕ) : magnitude n = magnitude 1 ^ n := by
  rw [magnitude, magnitude, ← Real.rpow_natCast, ← Real.rpow_mul (by norm_num)]
  push_cast
  ring_nf

/-- A whole multiple of `N` is a power of two (30_encoding.md R51). -/
theorem magnitude_scale_mul (q : ℤ) : magnitude (2 ^ 23 * q) = 2 ^ q := by
  have hexp : ((2 ^ 23 * q : ℤ) : ℝ) / (Config.scale : ℝ) = q := by
    rw [scale_real, Int.cast_mul, Int.cast_pow, Int.cast_ofNat, mul_div_cancel_left₀ _ (by norm_num)]
  rw [magnitude, hexp, Real.rpow_intCast]

/-- A magnitude is a power of two times a power of the root below the `N`-th. -/
theorem magnitude_eq_zpow_mul_pow (x : ℤ) :
    magnitude x = 2 ^ (x / 2 ^ 23) * magnitude 1 ^ (x % 2 ^ 23).toNat := by
  have hmod : ((x % 2 ^ 23).toNat : ℤ) = x % 2 ^ 23 := Int.toNat_of_nonneg (by omega)
  rw [← magnitude_scale_mul, ← magnitude_natCast, ← magnitude_add, hmod, Int.mul_ediv_add_emod]

theorem one_lt_magnitude_one : 1 < magnitude 1 := by
  simpa using magnitude_strictMono (show (0 : ℤ) < 1 by norm_num)

/-! ## Coordinates over the rationals -/

/-- The coordinate of the magnitude of `x` along the residue of `j` modulo `N`. -/
def coord (j x : ℤ) : ℚ := if x % 2 ^ 23 = j % 2 ^ 23 then 2 ^ (x / 2 ^ 23) else 0

/-- The coordinates are linear: a rational relation between magnitudes holds between their coordinates. -/
theorem exists_coordinate (j : ℤ) : ∃ φ : ℝ →ₗ[ℚ] ℚ, ∀ x : ℤ, φ (magnitude x) = coord j x := by
  obtain ⟨g, hg⟩ := LinearMap.exists_leftInverse_of_injective
    (Finsupp.linearCombination ℚ fun i : Fin Config.scale => magnitude 1 ^ (i : ℕ))
    (LinearMap.ker_eq_bot.mpr linearIndependent_magnitude)
  have hlt (x : ℤ) : (x % 2 ^ 23).toNat < Config.scale := by
    have hscale := scale_int
    omega
  have hcoord (i : Fin Config.scale) : g (magnitude 1 ^ (i : ℕ)) = Finsupp.single i 1 := by
    simpa using LinearMap.congr_fun hg (Finsupp.single i 1)
  refine ⟨Finsupp.lapply ⟨_, hlt j⟩ ∘ₗ g, fun x => ?_⟩
  have hsmul : magnitude x = (2 ^ (x / 2 ^ 23) : ℚ) • magnitude 1 ^ (x % 2 ^ 23).toNat := by
    rw [magnitude_eq_zpow_mul_pow, Rat.smul_def]
    push_cast
    rfl
  have hiff : (⟨_, hlt x⟩ : Fin Config.scale) = ⟨_, hlt j⟩ ↔ x % 2 ^ 23 = j % 2 ^ 23 := by
    rw [Fin.mk.injEq]
    omega
  rw [hsmul, map_smul, LinearMap.comp_apply, hcoord ⟨_, hlt x⟩, Finsupp.lapply_apply,
    Finsupp.single_apply]
  simp only [coord, hiff, smul_eq_mul, mul_ite, mul_one, mul_zero]

theorem coord_nonneg (j x : ℤ) : 0 ≤ coord j x := by
  unfold coord
  split
  · positivity
  · exact le_rfl

theorem coord_ne_zero_iff (j x : ℤ) : coord j x ≠ 0 ↔ x % 2 ^ 23 = j % 2 ^ 23 := by
  refine ite_ne_right_iff.trans (and_iff_left ?_)
  positivity

theorem coord_of_emod_eq {j x : ℤ} (h : x % 2 ^ 23 = j % 2 ^ 23) : coord j x = 2 ^ (x / 2 ^ 23) :=
  if_pos h

theorem coord_self_pos (j : ℤ) : 0 < coord j j :=
  (coord_nonneg j j).lt_of_ne' ((coord_ne_zero_iff j j).mpr rfl)

/-- No field has the residues of two neighbours. -/
theorem coord_succ_eq_zero {j x : ℤ} (h : coord j x ≠ 0) : coord (j + 1) x = 0 := by
  rw [coord_ne_zero_iff] at h
  by_contra hsucc
  rw [← ne_eq, coord_ne_zero_iff] at hsucc
  omega

theorem coord_eq_zero_of_succ {j x : ℤ} (h : coord (j + 1) x ≠ 0) : coord j x = 0 := by
  by_contra hj
  exact h (coord_succ_eq_zero hj)

/-- Integers with one residue and one quotient modulo `N` are equal. -/
theorem eq_of_coord_eq {j x z : ℤ} (hx : coord j x ≠ 0) (h : coord j x = coord j z) : x = z := by
  have hz : z % 2 ^ 23 = j % 2 ^ 23 := (coord_ne_zero_iff j z).mp (h ▸ hx)
  have hx : x % 2 ^ 23 = j % 2 ^ 23 := (coord_ne_zero_iff j x).mp hx
  rw [coord_of_emod_eq hx, coord_of_emod_eq hz] at h
  have hdiv := zpow_right_injective₀ (by norm_num : (0 : ℚ) < 2) (by norm_num) h
  omega

/-- A field of `N` doubles a coordinate. -/
theorem coord_add_scale (j x : ℤ) : coord j (x + 2 ^ 23) = 2 * coord j x := by
  have hmod : (x + 2 ^ 23) % 2 ^ 23 = x % 2 ^ 23 := by omega
  have hdiv : (x + 2 ^ 23) / 2 ^ 23 = x / 2 ^ 23 + 1 := by omega
  rw [coord, coord, hmod, hdiv, zpow_add_one₀ (by norm_num), mul_ite, mul_zero, mul_comm]

theorem add_scale_int_of_two_mul_coord {j x : ℤ} (h : 2 * coord j x = coord j j) : x + 2 ^ 23 = j := by
  rw [← coord_add_scale] at h
  exact eq_of_coord_eq (h ▸ (coord_self_pos j).ne') h

/-! ## Which sums of two magnitudes are magnitudes or midpoints -/

/-- Two powers of two have a power of two as their sum only if they are equal. -/
theorem eq_of_two_zpow_add_eq {u v w : ℤ} (h : (2 : ℚ) ^ u + 2 ^ v = 2 ^ w) : u = v := by
  have no_lt {u v : ℤ} (h : (2 : ℚ) ^ u + 2 ^ v = 2 ^ w) : ¬u < v := by
    intro huv
    have hpos : (0 : ℚ) < 2 ^ u := by positivity
    have hlt : (2 : ℚ) ^ u < 2 ^ v := zpow_lt_zpow_right₀ (by norm_num) huv
    have hsucc : (2 : ℚ) ^ (v + 1) = 2 * 2 ^ v := by rw [zpow_add_one₀ (by norm_num), mul_comm]
    have hlo : v < w := (zpow_lt_zpow_iff_right₀ (by norm_num : (1 : ℚ) < 2)).mp (by linarith)
    have hhi : w < v + 1 := (zpow_lt_zpow_iff_right₀ (by norm_num : (1 : ℚ) < 2)).mp (by linarith)
    omega
  exact le_antisymm (not_lt.mp (no_lt ((add_comm _ _).trans h))) (not_lt.mp (no_lt h))

variable {x z k : ℤ}

/-- Two magnitudes add up to a magnitude only if they are equal (42_additive.md R113). -/
theorem eq_of_magnitude_add_eq (h : magnitude x + magnitude z = magnitude k) : x = z := by
  have hcoord (j : ℤ) : coord j x + coord j z = coord j k := by
    obtain ⟨φ, hφ⟩ := exists_coordinate j
    simpa only [map_add, hφ] using congrArg φ h
  have hkx : k % 2 ^ 23 = x % 2 ^ 23 := (coord_ne_zero_iff x k).mp
    (hcoord x ▸ (add_pos_of_pos_of_nonneg (coord_self_pos x) (coord_nonneg x z)).ne')
  have hkz : k % 2 ^ 23 = z % 2 ^ 23 := (coord_ne_zero_iff z k).mp
    (hcoord z ▸ (add_pos_of_nonneg_of_pos (coord_nonneg z x) (coord_self_pos z)).ne')
  have hzx : z % 2 ^ 23 = x % 2 ^ 23 := hkz.symm.trans hkx
  have hsum := hcoord x
  rw [coord_of_emod_eq rfl, coord_of_emod_eq hzx, coord_of_emod_eq hkx] at hsum
  have hdiv := eq_of_two_zpow_add_eq hsum
  omega

/-- Two magnitudes differ by a magnitude only if one is twice the other (42_additive.md R113). -/
theorem eq_add_scale_of_magnitude_sub_eq (h : magnitude x - magnitude z = magnitude k) :
    x = z + 2 ^ 23 := by
  have hsum : magnitude z + magnitude k = magnitude x := by linarith
  obtain rfl := eq_of_magnitude_add_eq hsum
  apply magnitude_strictMono.injective
  rw [magnitude_add, ← scale_int, magnitude_scale]
  linarith

/-- The sum of two magnitudes is midway between neighbours only if their fields are one apart
(42_additive.md R112). -/
theorem one_apart_of_two_mul_add_eq
    (h : 2 * (magnitude x + magnitude z) = magnitude k + magnitude (k + 1)) :
    x = z + 1 ∨ z = x + 1 := by
  have hcoord (j : ℤ) : 2 * (coord j x + coord j z) = coord j k + coord j (k + 1) := by
    obtain ⟨φ, hφ⟩ := exists_coordinate j
    simpa only [two_mul, map_add, hφ] using congrArg φ h
  have hk := hcoord k
  have hk1 := hcoord (k + 1)
  rw [coord_eq_zero_of_succ (coord_self_pos (k + 1)).ne', add_zero] at hk
  rw [coord_succ_eq_zero (coord_self_pos k).ne', zero_add] at hk1
  have one_apart {x z : ℤ} (hx : coord k x ≠ 0) (hk : 2 * (coord k x + coord k z) = coord k k)
      (hk1 : 2 * (coord (k + 1) x + coord (k + 1) z) = coord (k + 1) (k + 1)) : z = x + 1 := by
    rw [coord_succ_eq_zero hx, zero_add] at hk1
    have hz : coord (k + 1) z ≠ 0 := fun h0 => by simp [h0, (coord_self_pos (k + 1)).ne] at hk1
    rw [coord_eq_zero_of_succ hz, add_zero] at hk
    have hxk := add_scale_int_of_two_mul_coord hk
    have hzk := add_scale_int_of_two_mul_coord hk1
    omega
  by_cases hx : coord k x = 0
  · have hz : coord k z ≠ 0 := fun h0 => by simp [hx, h0, (coord_self_pos k).ne] at hk
    exact .inl (one_apart hz (by rwa [add_comm]) (by rwa [add_comm]))
  · exact .inr (one_apart hx hk hk1)

/-- The difference of two magnitudes is never midway between neighbours: a midpoint has two positive
coordinates, and only the greater magnitude can give one (42_additive.md R112). -/
theorem two_mul_magnitude_sub_ne (x z k : ℤ) :
    2 * (magnitude x - magnitude z) ≠ magnitude k + magnitude (k + 1) := by
  intro h
  have hx (j : ℤ) (hj : 0 < coord j k + coord j (k + 1)) : coord j x ≠ 0 := by
    obtain ⟨φ, hφ⟩ := exists_coordinate j
    have hcoord := congrArg φ h
    simp only [two_mul, map_add, map_sub, hφ] at hcoord
    have hz := coord_nonneg j z
    exact fun h0 => by linarith
  have hk := hx k (add_pos_of_pos_of_nonneg (coord_self_pos k) (coord_nonneg _ _))
  have hk1 := hx (k + 1) (add_pos_of_nonneg_of_pos (coord_nonneg _ _) (coord_self_pos (k + 1)))
  exact hk1 (coord_succ_eq_zero hk)

/-- A whole number is never midway between neighbours: it has only the coordinate of the field 0. -/
theorem two_mul_natCast_ne (n : ℕ) (k : ℤ) : 2 * (n : ℝ) ≠ magnitude k + magnitude (k + 1) := by
  intro h
  have hzero (j : ℤ) (hj : 0 < coord j k + coord j (k + 1)) : coord j 0 ≠ 0 := by
    obtain ⟨φ, hφ⟩ := exists_coordinate j
    have hnat : 2 * (n : ℝ) = (2 * n : ℚ) • magnitude 0 := by simp [Rat.smul_def]
    have hcoord := congrArg φ h
    rw [hnat, map_smul, map_add, hφ, hφ, hφ, smul_eq_mul] at hcoord
    exact fun h0 => by rw [h0, mul_zero] at hcoord; linarith
  have hk := hzero k (add_pos_of_pos_of_nonneg (coord_self_pos k) (coord_nonneg _ _))
  have hk1 := hzero (k + 1) (add_pos_of_nonneg_of_pos (coord_nonneg _ _) (coord_self_pos (k + 1)))
  exact hk1 (coord_succ_eq_zero hk)

/-! ## The norm bound -/

section Norm

variable {n : ℕ} {θ : ℝ}

theorem minpoly_root (hn : 0 < n) (hθ : θ ^ n = 2) : minpoly ℚ θ = X ^ n - C 2 :=
  (minpoly.eq_of_irreducible_of_monic (irreducible_X_pow_sub_two hn) (by simp [hθ])
    (monic_X_pow_sub_C 2 hn.ne')).symm

theorem isIntegral_root (hn : 0 < n) (hθ : θ ^ n = 2) : IsIntegral ℤ θ :=
  ⟨X ^ n - C 2, monic_X_pow_sub_C 2 hn.ne', by simp [hθ]⟩

/-- The norm of a nonzero algebraic integer is a nonzero whole number. -/
theorem one_le_abs_norm {K : IntermediateField ℚ ℝ} [FiniteDimensional ℚ K] {α : K}
    (hint : IsIntegral ℤ α) (hne : α ≠ 0) : 1 ≤ |Algebra.norm ℚ α| := by
  obtain ⟨z, hz⟩ := IsIntegrallyClosed.isIntegral_iff.mp (Algebra.isIntegral_norm ℚ hint)
  have hz0 : z ≠ 0 := by
    rintro rfl
    exact Algebra.norm_ne_zero_iff.mpr hne (hz.symm.trans (map_zero _))
  rw [← hz, eq_intCast]
  exact_mod_cast Int.one_le_abs hz0

/-- A nonzero algebraic integer with small conjugates is not small itself: its norm is the product of the
conjugates. -/
theorem one_le_norm_mul_pow_finrank {K : IntermediateField ℚ ℝ} [FiniteDimensional ℚ K] {α : K}
    (hint : IsIntegral ℤ α) (hne : α ≠ 0) {B : ℝ} (hB : ∀ σ : K →ₐ[ℚ] ℂ, ‖σ α‖ ≤ B)
    (ι : K →ₐ[ℚ] ℂ) : 1 ≤ ‖ι α‖ * B ^ (Module.finrank ℚ K - 1) := by
  classical
  calc (1 : ℝ) ≤ |((Algebra.norm ℚ α : ℚ) : ℝ)| := by exact_mod_cast one_le_abs_norm hint hne
    _ = ‖algebraMap ℚ ℂ (Algebra.norm ℚ α)‖ := by simp
    _ = ∏ σ : K →ₐ[ℚ] ℂ, ‖σ α‖ := by rw [Algebra.norm_eq_prod_embeddings, norm_prod]
    _ = ‖ι α‖ * ∏ σ ∈ Finset.univ.erase ι, ‖σ α‖ :=
        (Finset.mul_prod_erase _ _ (Finset.mem_univ ι)).symm
    _ ≤ ‖ι α‖ * B ^ (Module.finrank ℚ K - 1) := by
        gcongr
        rw [← AlgHom.card ℚ K ℂ, ← Finset.card_univ,
          ← Finset.card_erase_of_mem (Finset.mem_univ ι), ← Finset.prod_const]
        exact Finset.prod_le_prod (fun σ _ => norm_nonneg _) fun σ _ => hB σ

/-- A nonzero integer polynomial of the root of two is bounded below by what bounds its conjugates. -/
theorem one_le_abs_aeval_mul_pow (hn : 0 < n) (hθ0 : 0 ≤ θ) (hθ : θ ^ n = 2) {P : ℤ[X]}
    (hP : aeval θ P ≠ 0) {B : ℝ} (hB : ∀ z : ℂ, ‖z‖ = θ → ‖aeval z P‖ ≤ B) :
    1 ≤ |aeval θ P| * B ^ (n - 1) := by
  have hintθ : IsIntegral ℚ θ := (isIntegral_root hn hθ).tower_top
  let K := IntermediateField.adjoin ℚ {θ}
  have : FiniteDimensional ℚ K := IntermediateField.adjoin.finiteDimensional hintθ
  have hrank : Module.finrank ℚ K = n := by
    rw [IntermediateField.adjoin.finrank hintθ, minpoly_root hn hθ]
    exact natDegree_X_pow_sub_C
  let γ : K := IntermediateField.AdjoinSimple.gen ℚ θ
  have hγθ : (γ : ℝ) = θ := IntermediateField.AdjoinSimple.coe_gen ℚ θ
  have hγ : γ ^ n = 2 := Subtype.ext (by rw [SubmonoidClass.coe_pow, hγθ]; exact hθ)
  have hγint : γ ∈ integralClosure ℤ K :=
    ⟨X ^ n - C 2, monic_X_pow_sub_C 2 hn.ne', by simp [hγ]⟩
  have hint : IsIntegral ℤ (aeval γ P) :=
    Algebra.adjoin_le (Set.singleton_subset_iff.mpr hγint) (aeval_mem_adjoin_singleton ℤ γ)
  have happly (σ : K →ₐ[ℚ] ℂ) : σ (aeval γ P) = aeval (σ γ) P :=
    (aeval_algHom_apply (σ.restrictScalars ℤ) γ P).symm
  have hconj (σ : K →ₐ[ℚ] ℂ) : ‖σ (aeval γ P)‖ ≤ B := by
    rw [happly]
    refine hB _ ((pow_left_inj₀ (norm_nonneg _) hθ0 hn.ne').mp ?_)
    rw [← norm_pow, ← map_pow, hγ, hθ, map_ofNat, Complex.norm_ofNat]
  let ι : K →ₐ[ℚ] ℂ := (Complex.ofRealAm.restrictScalars ℚ).comp K.val
  have hι : ‖ι (aeval γ P)‖ = |aeval θ P| := by
    have hγι : ι γ = ((θ : ℝ) : ℂ) := congrArg Complex.ofReal hγθ
    rw [happly, hγι, ← Real.norm_eq_abs, ← Complex.norm_real]
    exact congrArg norm (aeval_algebraMap_apply ℂ θ P)
  have hne : aeval γ P ≠ 0 := by
    intro h
    rw [h, map_zero, norm_zero] at hι
    exact hP (abs_eq_zero.mp hι.symm)
  have hbound := one_le_norm_mul_pow_finrank hint hne hconj ι
  rwa [hι, hrank] at hbound

end Norm

end Sys2Proof.Proofs.RootOfTwo
end

section
/-!
PROOFS. The midpoints of neighbouring magnitudes, and the magnitude nearest to a positive real
(42_additive.md R110 to R112).
-/

namespace Sys2Proof.Proofs.NearestMagnitude

open Machine RootOfTwo

/-! ## Midpoints -/

/-- The real midway between the magnitudes of `k` and `k + 1`. -/
noncomputable def midpointAbove (k : ℤ) : ℝ := (magnitude k + magnitude (k + 1)) / 2

theorem midpointAbove_eq_mul (k : ℤ) : midpointAbove k = magnitude k * ((1 + magnitude 1) / 2) := by
  rw [midpointAbove, magnitude_add]
  ring

theorem magnitude_mul_midpointAbove (x k : ℤ) :
    magnitude x * midpointAbove k = midpointAbove (x + k) := by
  rw [midpointAbove_eq_mul, midpointAbove_eq_mul, magnitude_add, mul_assoc]

theorem magnitude_lt_midpointAbove (k : ℤ) : magnitude k < midpointAbove k := by
  have hlt := magnitude_strictMono (lt_add_one k)
  unfold midpointAbove
  linarith

theorem midpointAbove_lt_magnitude (k : ℤ) : midpointAbove k < magnitude (k + 1) := by
  have hlt := magnitude_strictMono (lt_add_one k)
  unfold midpointAbove
  linarith

variable {v : ℝ} {r : ℤ}

/-- Between the two midpoints around a magnitude no other magnitude is nearer (42_additive.md R110). -/
theorem abs_sub_magnitude_le (hlo : midpointAbove (r - 1) ≤ v) (hhi : v ≤ midpointAbove r) (k : ℤ) :
    |v - magnitude r| ≤ |v - magnitude k| := by
  rw [midpointAbove, sub_add_cancel] at hlo
  rw [midpointAbove] at hhi
  rcases lt_trichotomy k r with hk | rfl | hk
  · have hmono : magnitude k ≤ magnitude (r - 1) := magnitude_strictMono.monotone (by omega)
    refine le_trans ?_ (le_abs_self _)
    exact abs_le.mpr ⟨by linarith, by linarith [magnitude_strictMono hk]⟩
  · exact le_rfl
  · have hmono : magnitude (r + 1) ≤ magnitude k := magnitude_strictMono.monotone (by omega)
    refine le_trans ?_ (neg_le_abs _)
    exact abs_le.mpr ⟨by linarith [magnitude_strictMono hk], by linarith⟩

/-- What the interval refinement compares, as bounds by midpoints (42_additive.md R114). -/
theorem midpointAbove_bounds_of_pow_bounds (hv : 0 ≤ v)
    (hlo : (2 : ℝ) ^ (r - 1) ≤ (2 * v / (1 + magnitude 1)) ^ Config.scale)
    (hhi : (2 * v / (1 + magnitude 1)) ^ Config.scale < (2 : ℝ) ^ r) :
    midpointAbove (r - 1) ≤ v ∧ v < midpointAbove r := by
  have hg := magnitude_pos 1
  have hscale : Config.scale ≠ 0 := by positivity
  rw [← magnitude_pow_scale] at hlo hhi
  have hlo' := (pow_le_pow_iff_left₀ (magnitude_pos _).le (by positivity) hscale).mp hlo
  have hhi' := (pow_lt_pow_iff_left₀ (by positivity) (magnitude_pos _).le hscale).mp hhi
  rw [le_div_iff₀ (by positivity)] at hlo'
  rw [div_lt_iff₀ (by positivity)] at hhi'
  rw [midpointAbove_eq_mul, midpointAbove_eq_mul]
  constructor <;> linarith

/-! ## The rounding of R111 -/

/-- The floor of the scaled logarithm names the magnitude below (42_additive.md R111). -/
theorem floor_scale_mul_logb {k : ℤ} (hlo : magnitude k ≤ v) (hhi : v < magnitude (k + 1)) :
    ⌊(Config.scale : ℝ) * Real.logb 2 v⌋ = k := by
  have hv : 0 < v := (magnitude_pos k).trans_le hlo
  rw [Int.floor_eq_iff]
  constructor
  · rw [← scale_mul_logb_magnitude k]
    gcongr
    · norm_num
    · exact magnitude_pos k
  · have hlog : Real.logb 2 v < Real.logb 2 (magnitude (k + 1)) :=
      Real.logb_lt_logb (by norm_num) hv hhi
    have hmul := mul_lt_mul_of_pos_left hlog scale_pos
    rw [scale_mul_logb_magnitude] at hmul
    exact_mod_cast hmul

theorem floor_scale_mul_logb_midpointAbove (k : ℤ) :
    ⌊(Config.scale : ℝ) * Real.logb 2 (midpointAbove k)⌋ = k :=
  floor_scale_mul_logb (magnitude_lt_midpointAbove k).le (midpointAbove_lt_magnitude k)

/-- Rounding compares with the midpoint above the floor (42_additive.md R111). -/
theorem roundedLog_of_floor {S : ℝ} {k : ℤ} (hlo : magnitude k ≤ |S|)
    (hhi : |S| < magnitude (k + 1)) :
    (|S| < midpointAbove k → roundedLog S = k) ∧
      (midpointAbove k < |S| → roundedLog S = k + 1) ∧
      (|S| = midpointAbove k → roundedLog S = evenOf k) := by
  simp only [roundedLog, floor_scale_mul_logb hlo hhi, midpointAbove, evenOf]
  refine ⟨fun h => if_pos (by linarith), fun h => ?_, fun h => ?_⟩
  · rw [if_neg (by linarith), if_pos (by linarith)]
  · rw [if_neg (by linarith), if_neg (by linarith)]

/-- Strictly between the two midpoints around a magnitude, rounding gives its field. -/
theorem roundedLog_of_between {S : ℝ} (hlo : midpointAbove (r - 1) < |S|)
    (hhi : |S| < midpointAbove r) : roundedLog S = r := by
  have hbelow := magnitude_lt_midpointAbove (r - 1)
  have habove := midpointAbove_lt_magnitude r
  rcases lt_or_ge |S| (magnitude r) with hS | hS
  · have hround := (roundedLog_of_floor (k := r - 1) (by linarith) (by simpa using hS)).2.1 hlo
    simpa using hround
  · exact (roundedLog_of_floor hS (by linarith)).1 hhi

theorem roundedLog_of_tie {S : ℝ} {k : ℤ} (h : |S| = midpointAbove k) : roundedLog S = evenOf k := by
  have hbelow := magnitude_lt_midpointAbove k
  have habove := midpointAbove_lt_magnitude k
  exact (roundedLog_of_floor (by linarith) (by linarith)).2.2 h

theorem roundedLog_of_magnitude {S : ℝ} {k : ℤ} (h : |S| = magnitude k) : roundedLog S = k := by
  apply roundedLog_of_between
  · simpa [h] using midpointAbove_lt_magnitude (k - 1)
  · simpa [h] using magnitude_lt_midpointAbove k

end Sys2Proof.Proofs.NearestMagnitude
end

section
/-!
PROOFS. How narrow the bounds of the interval arithmetic are, and that a precision decides as soon as they
are narrower than the distance to the nearest midpoint (42_additive.md R114; log 11).
-/

namespace Sys2Proof.Proofs.IntervalWidth

open Machine RootOfTwo NearestMagnitude

/-! ## Powers of two -/

/-- The bounds of `2^(j / 2^n)` are at least 1 and grow apart by at most 1 a square root. -/
theorem exp2Frac_width (p : ℕ) : ∀ n j : ℕ, j < 2 ^ n →
    2 ^ p ≤ (exp2Frac p n j).lo ∧ (exp2Frac p n j).hi ≤ (exp2Frac p n j).lo + n
  | 0, j, _ => by simp [exp2Frac]
  | n + 1, j, hj => by
    obtain ⟨hlo, hwidth⟩ := exp2Frac_width p n (j % 2 ^ n) (Nat.mod_lt _ (by positivity))
    have hbit : 2 ^ (j / 2 ^ n) ≤ 2 := by
      have : j / 2 ^ n < 2 := (Nat.div_lt_iff_lt_mul (by positivity)).mpr (by rwa [← pow_succ'])
      exact (Nat.pow_le_pow_right (by norm_num) (Nat.le_of_lt_succ this)).trans_eq (pow_one 2)
    have hbit1 : 1 ≤ 2 ^ (j / 2 ^ n) := Nat.one_le_two_pow
    simp only [exp2Frac, isqrt_eq_sqrt]
    generalize (exp2Frac p n (j % 2 ^ n)).lo = lo at hlo hwidth
    generalize (exp2Frac p n (j % 2 ^ n)).hi = hi at hwidth
    generalize 2 ^ (j / 2 ^ n) = b at hbit hbit1
    generalize 2 ^ p = c at hlo
    have hroot : c ≤ Nat.sqrt (lo * b * c) :=
      Nat.le_sqrt.mpr (Nat.mul_le_mul_right c (hlo.trans (Nat.le_mul_of_pos_right lo hbit1)))
    have hsqrt : lo * b * c < (Nat.sqrt (lo * b * c) + 1) * (Nat.sqrt (lo * b * c) + 1) :=
      Nat.lt_succ_sqrt _
    refine ⟨hroot, ?_⟩
    generalize Nat.sqrt (lo * b * c) = s at hroot hsqrt
    have hhi : Nat.sqrt (hi * b * c) < s + n + 1 := by
      rw [Nat.sqrt_lt]
      calc hi * b * c ≤ (lo + n) * b * c := by gcongr
        _ = lo * b * c + n * (b * c) := by ring
        _ ≤ lo * b * c + n * (2 * s) := by gcongr
        _ < (s + 1) * (s + 1) + n * (2 * s) := by omega
        _ ≤ (s + n + 1) * (s + n + 1) := by nlinarith
    omega

/-- Dividing bounds by a whole number does not draw them apart, but for the rounding. -/
theorem div_add_one_le (lo u : ℕ) {q : ℕ} (hq : 0 < q) : (lo + u) / q + 1 ≤ lo / q + (u + 2) := by
  have hlt : (lo + u) / q < lo / q + u + 1 + 1 := by
    rw [Nat.div_lt_iff_lt_mul hq]
    have hlo : lo < (lo / q + 1) * q := by
      rw [← Nat.div_lt_iff_lt_mul hq]
      exact Nat.lt_succ_self _
    nlinarith
  omega

theorem exp2Neg_width (p d : ℕ) : (exp2Neg p d).hi ≤ (exp2Neg p d).lo + 25 := by
  have hj : (d + (Config.scale - 1)) / Config.scale * Config.scale - d < Config.scale := by
    rw [scale_nat]
    omega
  obtain ⟨-, hwidth⟩ := exp2Frac_width p Config.fracBits _ hj
  exact (Nat.add_le_add_right (Nat.div_le_div_right hwidth) 1).trans (div_add_one_le _ 23 (by positivity))

theorem relativeSum_width (same : Bool) (d p : ℕ) :
    (relativeSum same d p).hi ≤ (relativeSum same d p).lo + 25 := by
  have hwidth := exp2Neg_width p d
  cases same with
  | false =>
    simp only [relativeSum, Bool.false_eq_true, if_false]
    omega
  | true =>
    simp only [relativeSum, if_true]
    omega

/-! ## Relative width -/

/-- The bounds of `v` differ by less than the factor `G`, with a margin for one rounding of `p` bits. -/
def TightWithin (p : ℕ) (G : ℝ) (lo hi : ℕ) : Prop := (hi : ℝ) * (1 + 16 / 2 ^ p) ≤ G * lo

/-- A quotient of whole numbers is rounded down by less than 1. -/
theorem sub_one_lt_cast_div (m n : ℕ) : (m : ℝ) / n - 1 < ((m / n : ℕ) : ℝ) := by
  have hfloor := Nat.lt_floor_add_one ((m : ℝ) / n)
  rw [Nat.floor_div_natCast, Nat.floor_natCast] at hfloor
  linarith

/-- The bounds of `2^(1/N)` as reals. -/
theorem exp2Frac_one_bounds (p : ℕ) :
    (2 : ℝ) ^ p ≤ (exp2Frac p Config.fracBits 1).lo ∧
      ((exp2Frac p Config.fracBits 1).lo : ℝ) ≤ 2 * 2 ^ p ∧
      ((exp2Frac p Config.fracBits 1).hi : ℝ) ≤ (exp2Frac p Config.fracBits 1).lo + 23 := by
  obtain ⟨hlo, hwidth⟩ := exp2Frac_width p Config.fracBits 1 (by decide)
  obtain ⟨hmag, -⟩ := exp2Frac_encloses p Config.fracBits 1 (by decide)
  refine ⟨by exact_mod_cast hlo, hmag.trans ?_, by exact_mod_cast hwidth⟩
  gcongr
  refine Real.rpow_le_self_of_one_le (by norm_num) ?_
  rw [Nat.cast_one, div_le_one (by positivity)]
  exact one_le_pow₀ (by norm_num)

/-- The arithmetic of `midpointRatio_tight`: `w` and `ε` are the ratio and one unit, relative to `2^p`. -/
theorem tight_of_relative_error {w ε : ℝ} (hε : 0 < ε) (hε' : ε ≤ 1 / 2 ^ 64) (hw : 1 / 2 ^ 27 ≤ w) :
    (w * (1 + 12 * ε) + 26 * ε) * (1 + 16 * ε) ≤ (1 + 2 ^ 40 * ε) * (w - ε) := by
  have hεw : ε * w ≤ 1 / 2 ^ 64 * w := by
    have : 0 ≤ w := le_trans (by norm_num) hw
    gcongr
  have hkey : 27 + 28 * w + (192 * (ε * w) + 416 * ε + 2 ^ 40 * ε) ≤ 2 ^ 40 * w := by
    norm_num at hε' hw hεw ⊢
    linarith
  nlinarith [mul_le_mul_of_nonneg_left hkey hε.le]

/-- The upper bound of a ratio, against the lower one `w`: `E` is one unit, and `A`, `B` bound the root. -/
theorem upper_ratio_le {E A B lo hi w : ℝ} (hE : 0 < E) (hA : E ≤ A) (hBA : B ≤ A + 23)
    (hhi : hi ≤ lo + 25) (hw0 : 0 ≤ w) (hw : w * (E + B) = 2 * lo) :
    2 * hi * E / (E + A) ≤ w * E + 12 * w + 25 := by
  rw [div_le_iff₀ (by linarith)]
  nlinarith [mul_nonneg hw0 hE.le, mul_nonneg hw0 (sub_nonneg.mpr hA),
    mul_nonneg (mul_nonneg hw0 hE.le) (sub_nonneg.mpr hBA)]

/-- Bounds of `v` a few units apart give bounds of `2v / (1 + 2^(1/N))` that are relatively tight. -/
theorem midpointRatio_tight {p : ℕ} {x : Interval} (hp : 64 ≤ p) (hwidth : x.hi ≤ x.lo + 25)
    (hlo : (2 : ℝ) ^ p / 2 ^ 26 ≤ x.lo) :
    TightWithin p (1 + 2 ^ 40 / 2 ^ p) (midpointRatio p x).lo (midpointRatio p x).hi ∧
      (2 : ℝ) ^ p / 2 ^ 28 ≤ (midpointRatio p x).lo := by
  obtain ⟨hAlo, hAhi, hBA⟩ := exp2Frac_one_bounds p
  have hwidth' : (x.hi : ℝ) ≤ x.lo + 25 := by exact_mod_cast hwidth
  have hE : (2 : ℝ) ^ 64 ≤ 2 ^ p := pow_le_pow_right₀ (by norm_num) hp
  have hzlo := sub_one_lt_cast_div (2 * x.lo * 2 ^ p) (2 ^ p + (exp2Frac p Config.fracBits 1).hi)
  have hzhi : ((2 * x.hi * 2 ^ p / (2 ^ p + (exp2Frac p Config.fracBits 1).lo) : ℕ) : ℝ) ≤ _ :=
    Nat.cast_div_le
  simp only [TightWithin, midpointRatio]
  generalize (exp2Frac p Config.fracBits 1).lo = A at *
  generalize (exp2Frac p Config.fracBits 1).hi = B at *
  generalize 2 * x.lo * 2 ^ p / (2 ^ p + B) = zlo at *
  generalize 2 * x.hi * 2 ^ p / (2 ^ p + A) = zhi at *
  push_cast at hzlo hzhi ⊢
  generalize (2 : ℝ) ^ p = E at *
  have hE0 : 0 < E := by linarith
  have hEB : 0 < E + (B : ℝ) := by positivity
  obtain ⟨w, hw⟩ : ∃ w : ℝ, w = 2 * x.lo / (E + B) := ⟨_, rfl⟩
  have hw27 : 1 / 2 ^ 27 ≤ w := by
    rw [hw, div_le_div_iff₀ (by positivity) hEB]
    norm_num at hE hlo ⊢
    linarith
  have hlow : w * E - 1 < zlo := by rwa [hw, div_mul_eq_mul_div]
  have hhigh := hzhi.trans (upper_ratio_le hE0 hAlo hBA hwidth' (le_trans (by norm_num) hw27)
    (by rw [hw, div_mul_cancel₀ _ hEB.ne']))
  have hrel := tight_of_relative_error (one_div_pos.mpr hE0)
    (one_div_le_one_div_of_le (by positivity) hE) hw27
  constructor
  · calc ((zhi : ℝ) + 1) * (1 + 16 / E) ≤ (w * E + 12 * w + 26) * (1 + 16 / E) :=
          mul_le_mul_of_nonneg_right (by linarith) (by positivity)
      _ = (w * (1 + 12 * (1 / E)) + 26 * (1 / E)) * (1 + 16 * (1 / E)) * E := by field_simp
      _ ≤ (1 + 2 ^ 40 * (1 / E)) * (w - 1 / E) * E := by gcongr
      _ = (1 + 2 ^ 40 / E) * (w * E - 1) := by field_simp
      _ ≤ (1 + 2 ^ 40 / E) * zlo := by gcongr
  · have hmul : 1 / 2 ^ 27 * E ≤ w * E := by gcongr
    norm_num at hmul hE ⊢
    linarith

/-! ## Repeated squaring -/

/-- A squaring squares the relative width and keeps the margin, as long as the width stays small. -/
theorem squareScaled_tight {p : ℕ} {v : Scaled} {G : ℝ} (hG : G ^ 2 ≤ 7)
    (hhi : 2 ^ p ≤ v.hi * v.hi) (hv : TightWithin p G v.lo v.hi) :
    TightWithin p (G ^ 2) (squareScaled p v).lo (squareScaled p v).hi ∧
      2 ^ p ≤ 2 * (squareScaled p v).hi := by
  have hhi0 : v.hi * v.hi ≠ 0 := (Nat.two_pow_pos p).trans_le hhi |>.ne'
  obtain ⟨k, hk⟩ : ∃ k, k = (v.hi * v.hi).log2 + 1 - p := ⟨_, rfl⟩
  have hpow : 2 ^ p * 2 ^ k ≤ 2 * (v.hi * v.hi) := by
    have hlog : p ≤ (v.hi * v.hi).log2 := (Nat.le_log2 hhi0).mpr hhi
    rw [← pow_add, show p + k = (v.hi * v.hi).log2 + 1 by omega, pow_succ']
    exact Nat.mul_le_mul_left 2 (Nat.log2_self_le hhi0)
  have hlo' := sub_one_lt_cast_div (v.lo * v.lo) (2 ^ k)
  have hhi' : ((v.hi * v.hi / 2 ^ k : ℕ) : ℝ) ≤ _ := Nat.cast_div_le
  have hhalf : 2 ^ p ≤ 2 * (v.hi * v.hi / 2 ^ k + 1) := by
    have hlt : v.hi * v.hi < (v.hi * v.hi / 2 ^ k + 1) * 2 ^ k := by
      rw [← Nat.div_lt_iff_lt_mul (by positivity)]
      exact Nat.lt_succ_self _
    have hmul : 2 ^ p * 2 ^ k ≤ 2 * (v.hi * v.hi / 2 ^ k + 1) * 2 ^ k := by linarith
    exact Nat.le_of_mul_le_mul_right hmul (by positivity)
  simp only [TightWithin, squareScaled, ← hk] at hv ⊢
  refine ⟨?_, hhalf⟩
  generalize v.lo * v.lo / 2 ^ k = lo' at *
  generalize v.hi * v.hi / 2 ^ k = hi' at *
  have hpowR : (2 : ℝ) ^ p * 2 ^ k ≤ 2 * (v.hi * v.hi) := by exact_mod_cast hpow
  have hc : (0 : ℝ) < 2 ^ k := by positivity
  have hE : (0 : ℝ) < 2 ^ p := by positivity
  push_cast at hlo' hhi' ⊢
  generalize (2 : ℝ) ^ k = c at *
  generalize (2 : ℝ) ^ p = E at *
  obtain ⟨τ, hτ⟩ : ∃ τ, τ = 16 / E := ⟨_, rfl⟩
  have hτ0 : 0 < τ := hτ ▸ by positivity
  have hy : 8 ≤ τ * ((v.hi : ℝ) * v.hi / c) := by
    rw [hτ, div_mul_div_comm, le_div_iff₀ (by positivity)]
    linarith
  have hsq : (v.hi : ℝ) * v.hi / c * (1 + τ) ^ 2 ≤ G ^ 2 * (v.lo * v.lo / c) := by
    rw [← hτ] at hv
    have hmul := pow_le_pow_left₀ (by positivity) hv 2
    rw [div_mul_eq_mul_div, mul_div_assoc', div_le_div_iff_of_pos_right hc]
    linarith
  rw [← hτ]
  generalize (v.hi : ℝ) * v.hi / c = y at *
  generalize (v.lo : ℝ) * v.lo / c = x at *
  have hG0 : 0 ≤ G ^ 2 := sq_nonneg G
  nlinarith [mul_le_mul_of_nonneg_left hlo'.le hG0]

/-- Squaring `n` times raises the relative width to the power `2^n`. -/
theorem powScaled_tight {p : ℕ} (hp : 2 ≤ p) : ∀ (n : ℕ) {v : Scaled} {G : ℝ}, 1 ≤ G → G ^ 2 ^ n ≤ 7 →
    2 ^ p ≤ v.hi * v.hi → TightWithin p G v.lo v.hi →
    TightWithin p (G ^ 2 ^ n) (powScaled p n v).lo (powScaled p n v).hi
  | 0, v, G, _, _, _, hv => by simpa [powScaled] using hv
  | n + 1, v, G, hG, hG7, hhi, hv => by
    rw [pow_succ' 2 n, pow_mul] at hG7 ⊢
    have hG1 : 1 ≤ G ^ 2 := one_le_pow₀ hG
    have hG2 : G ^ 2 ≤ 7 := (le_self_pow₀ hG1 (by positivity)).trans hG7
    obtain ⟨hsq, hhi'⟩ := squareScaled_tight hG2 hhi hv
    refine powScaled_tight hp n hG1 hG7 ?_ hsq
    have h4 : 4 ≤ 2 ^ p := (show 4 = 2 ^ 2 by rfl) ▸ Nat.pow_le_pow_right (by norm_num) hp
    nlinarith

/-! ## Deciding -/

/-- The factor `G` separates `x` from every power of two. -/
def ApartFromPowers (G x : ℝ) : Prop :=
  ∀ m : ℤ, (x < 2 ^ m → G * x < 2 ^ m) ∧ (2 ^ m ≤ x → G * 2 ^ m < x)

/-- Bounds within a factor that separates `x` from the powers of two stand on one side of each. -/
theorem two_pow_log2_le_of_apart {lo hi : ℕ} {e : ℤ} {x G : ℝ} (hG : (hi : ℝ) ≤ G * lo) (hhi0 : hi ≠ 0)
    (hlo : (lo : ℝ) * 2 ^ e ≤ x) (hhi : x ≤ (hi : ℝ) * 2 ^ e) (hapart : ApartFromPowers G x) :
    2 ^ hi.log2 ≤ lo := by
  by_contra hlt
  have hlt : (lo : ℝ) < 2 ^ hi.log2 := by exact_mod_cast not_le.mp hlt
  have hself : (2 : ℝ) ^ hi.log2 ≤ hi := by exact_mod_cast Nat.log2_self_le hhi0
  have hG0 : 0 ≤ G := by
    have hhi1 : (0 : ℝ) < hi := by exact_mod_cast Nat.pos_of_ne_zero hhi0
    exact (pos_of_mul_pos_left (hhi1.trans_le hG) (Nat.cast_nonneg _)).le
  have he : (0 : ℝ) < 2 ^ e := by positivity
  have hGx : (hi : ℝ) * 2 ^ e ≤ G * (lo * 2 ^ e) := by
    rw [← mul_assoc]
    gcongr
  obtain ⟨hbelow, habove⟩ := hapart ((hi.log2 : ℤ) + e)
  rw [zpow_add₀ (by norm_num), zpow_natCast] at hbelow habove
  rcases lt_or_ge x (2 ^ hi.log2 * 2 ^ e) with hm | hm
  · have hGlo : G * (lo * 2 ^ e) ≤ G * x := by gcongr
    have hmhi : (2 : ℝ) ^ hi.log2 * 2 ^ e ≤ hi * 2 ^ e := by gcongr
    linarith [hbelow hm]
  · have hGm : G * (lo * 2 ^ e) ≤ G * (2 ^ hi.log2 * 2 ^ e) := by gcongr
    linarith [habove hm]

/-- Bounds that are tighter than the distance to the powers of two have one binary logarithm. -/
theorem floorLog2_isSome {v : Scaled} {x G : ℝ} {p : ℕ} (henc : EnclosesScaled v x) (hx : 0 < x)
    (htight : TightWithin p G v.lo v.hi) (hapart : ApartFromPowers G x) :
    (floorLog2 v).isSome = true := by
  obtain ⟨hlo, hhi⟩ := henc
  have he : (0 : ℝ) < 2 ^ v.e := by positivity
  have hhi0 : v.hi ≠ 0 := by
    intro h0
    rw [h0, Nat.cast_zero, zero_mul] at hhi
    linarith
  have hG : (v.hi : ℝ) ≤ G * v.lo :=
    (le_mul_of_one_le_right (Nat.cast_nonneg _) (le_add_of_nonneg_right (by positivity))).trans htight
  have hlog := two_pow_log2_le_of_apart hG hhi0 hlo hhi hapart
  have hle : v.lo ≤ v.hi := by exact_mod_cast le_of_mul_le_mul_right (hlo.trans hhi) he
  have hlo0 : v.lo ≠ 0 := ((Nat.two_pow_pos _).trans_le hlog).ne'
  have heq : v.lo.log2 = v.hi.log2 := le_antisymm
    ((Nat.le_log2 hhi0).mpr ((Nat.log2_self_le hlo0).trans hle)) ((Nat.le_log2 hlo0).mpr hlog)
  simp [floorLog2, hlo0, heq]

/-- A factor near 1 stays small through `FRAC_BITS` squarings. -/
theorem one_add_pow_scale_le {p : ℕ} (hp : 64 ≤ p) : (1 + 2 ^ 40 / 2 ^ p : ℝ) ^ Config.scale ≤ 7 := by
  have hη : (2 : ℝ) ^ 40 / 2 ^ p ≤ 1 / 2 ^ 24 := by
    rw [div_le_div_iff₀ (by positivity) (by positivity), one_mul, ← pow_add]
    exact pow_le_pow_right₀ (by norm_num) hp
  calc (1 + 2 ^ 40 / 2 ^ p : ℝ) ^ Config.scale
      ≤ Real.exp (2 ^ 40 / 2 ^ p) ^ Config.scale := by
        gcongr
        rw [add_comm]
        exact Real.add_one_le_exp _
    _ = Real.exp (Config.scale * (2 ^ 40 / 2 ^ p)) := (Real.exp_nat_mul _ _).symm
    _ ≤ Real.exp 1 := by
        rw [Real.exp_le_exp, scale_real]
        linarith
    _ ≤ 7 := by linarith [Real.exp_one_lt_d9]

/-- Reals that a root separates from the magnitudes are separated by its `N`-th power from the powers of
two. -/
theorem apartFromPowers_pow {η ρ : ℝ} (hη : 0 ≤ η) (hρ : 0 ≤ ρ)
    (hsep : ∀ k : ℤ, η * magnitude k < |ρ - magnitude k|) :
    ApartFromPowers ((1 + η) ^ Config.scale) (ρ ^ Config.scale) := by
  intro m
  have hscale : Config.scale ≠ 0 := by positivity
  have hm := magnitude_pos m
  have hsep := hsep m
  rw [← magnitude_pow_scale, ← mul_pow, ← mul_pow, pow_lt_pow_iff_left₀ hρ hm.le hscale,
    pow_lt_pow_iff_left₀ (by positivity) hm.le hscale, pow_le_pow_iff_left₀ hm.le hρ hscale,
    pow_lt_pow_iff_left₀ (by positivity) hρ hscale]
  constructor
  · intro hlt
    rw [abs_of_neg (by linarith)] at hsep
    nlinarith
  · intro hle
    rw [abs_of_nonneg (by linarith)] at hsep
    linarith

/-- A precision decides the magnitude nearest to `v` if `v` keeps a distance from the midpoints that its
bounds can tell (42_additive.md R114). -/
theorem nearestAt_isSome {p : ℕ} {x : Interval} {v : ℝ} (hp : 64 ≤ p) (henc : Encloses p x v)
    (hwidth : x.hi ≤ x.lo + 25) (hv : 1 / 2 ^ 25 ≤ v)
    (hsep : ∀ k : ℤ, 2 ^ 40 / 2 ^ p * magnitude k < |2 * v / (1 + magnitude 1) - magnitude k|) :
    (nearestAt p x).isSome = true := by
  have hv0 : 0 < v := lt_of_lt_of_le (by positivity) hv
  have hg := magnitude_pos 1
  have hE : (2 : ℝ) ^ 64 ≤ 2 ^ p := pow_le_pow_right₀ (by norm_num) hp
  have hxlo : (2 : ℝ) ^ p / 2 ^ 26 ≤ x.lo := by
    have hhi : v * 2 ^ p ≤ x.lo + 25 := henc.2.trans (by exact_mod_cast hwidth)
    have hmul : 1 / 2 ^ 25 * (2 : ℝ) ^ p ≤ v * 2 ^ p := by gcongr
    linarith
  obtain ⟨htight, hzlo⟩ := midpointRatio_tight hp hwidth hxlo
  obtain ⟨hencLo, hencHi⟩ := midpointRatio_encloses henc hv0.le
  have hzhi : 2 ^ p ≤ (midpointRatio p x).hi * (midpointRatio p x).hi := by
    have hR : (2 : ℝ) ^ p / 2 ^ 28 ≤ (midpointRatio p x).hi := hzlo.trans (hencLo.trans hencHi)
    have hsq := mul_self_le_mul_self (by positivity) hR
    have hle : (2 : ℝ) ^ p ≤ 2 ^ p / 2 ^ 28 * (2 ^ p / 2 ^ 28) := by
      norm_num at hE ⊢
      nlinarith
    exact_mod_cast hle.trans hsq
  have henc' : EnclosesScaled ⟨(midpointRatio p x).lo, (midpointRatio p x).hi, -(p : ℤ)⟩
      (2 * v / (1 + magnitude 1)) := by
    simp only [EnclosesScaled, zpow_neg, zpow_natCast, ← div_eq_mul_inv]
    exact ⟨(div_le_iff₀ (by positivity)).mpr hencLo, (le_div_iff₀ (by positivity)).mpr hencHi⟩
  have hpow := powScaled_tight (p := p) (by omega) Config.fracBits
    (v := ⟨(midpointRatio p x).lo, (midpointRatio p x).hi, -(p : ℤ)⟩)
    (le_add_of_nonneg_right (by positivity)) (one_add_pow_scale_le hp) hzhi htight
  rw [nearestAt, Option.isSome_map]
  exact floorLog2_isSome (powScaled_encloses p Config.fracBits henc') (by positivity) hpow
    (apartFromPowers_pow (by positivity) (by positivity) hsep)

/-- The refinement decides if one of its precisions does. -/
theorem nearestRefined_isSome {x : ℕ → Interval} : ∀ (k : ℕ) {p i : ℕ}, i < k →
    (nearestAt (2 ^ i * p) (x (2 ^ i * p))).isSome = true → (nearestRefined x k p).isSome = true
  | k + 1, p, 0, _, h => by
    obtain ⟨r, hr⟩ := Option.isSome_iff_exists.mp h
    rw [pow_zero, one_mul] at hr
    simp [nearestRefined, hr]
  | k + 1, p, i + 1, hi, h => by
    rw [pow_succ, mul_assoc] at h
    have ih := nearestRefined_isSome k (Nat.lt_of_succ_lt_succ hi) h
    rw [nearestRefined]
    split
    · rfl
    · exact ih

end Sys2Proof.Proofs.IntervalWidth
end

section
/-!
PROOFS. The interval refinement always decides: an integer combination of magnitudes keeps a distance from
the midpoints that one of the precisions resolves (42_additive.md R110, R114; log 11).
-/

namespace Sys2Proof.Proofs.Refinement

open Machine Polynomial RootOfTwo NearestMagnitude IntervalWidth

/-! ## Bounds on the root -/

theorem magnitude_one_le_two : magnitude 1 ≤ 2 := by
  have hmono := magnitude_strictMono.monotone (show (1 : ℤ) ≤ Config.scale by rw [scale_int]; norm_num)
  rwa [magnitude_scale] at hmono

/-- Neighbouring magnitudes are at least `2^-24` apart, relative to the greater one. -/
theorem magnitude_neg_one_le : magnitude (-1) ≤ 1 - 1 / 2 ^ 24 := by
  have hbernoulli : 1 + (Config.scale : ℝ) * (-(1 / 2 ^ 24)) ≤ (1 + -(1 / 2 ^ 24)) ^ Config.scale :=
    one_add_mul_le_pow (by norm_num) _
  refine le_of_pow_le_pow_left₀ (n := Config.scale) (by positivity) (by norm_num) ?_
  rw [magnitude_pow_scale]
  rw [scale_real] at hbernoulli
  norm_num at hbernoulli ⊢
  linarith

/-! ## The distance from the midpoints -/

/-- An integer polynomial `Q` of the root, with conjugates below `2^b`, keeps a distance from the midpoints
of its size: the product of the conjugates is a nonzero whole number. -/
theorem one_le_dist_mul {Q : ℤ[X]} {b m : ℕ}
    (hb : ∀ z : ℂ, ‖z‖ = magnitude 1 → ‖aeval z Q‖ ≤ 2 ^ b)
    (hm : magnitude 1 ^ m * (1 + magnitude 1) ≤ 4 * 2 ^ b)
    (hne : 2 * aeval (magnitude 1) Q ≠ magnitude 1 ^ m * (1 + magnitude 1)) :
    1 ≤ |2 * aeval (magnitude 1) Q - magnitude 1 ^ m * (1 + magnitude 1)| *
      2 ^ ((b + 3) * (Config.scale - 1)) := by
  have heval : aeval (magnitude 1) (2 * Q - X ^ m * (1 + X)) =
      2 * aeval (magnitude 1) Q - magnitude 1 ^ m * (1 + magnitude 1) := by simp [map_ofNat]
  have hconj (z : ℂ) (hz : ‖z‖ = magnitude 1) : ‖aeval z (2 * Q - X ^ m * (1 + X))‖ ≤ 2 ^ (b + 3) := by
    have hz1 : ‖1 + z‖ ≤ 1 + magnitude 1 := (norm_add_le 1 z).trans (by rw [norm_one, hz])
    calc ‖aeval z (2 * Q - X ^ m * (1 + X))‖ = ‖2 * aeval z Q - z ^ m * (1 + z)‖ := by simp [map_ofNat]
      _ ≤ ‖2 * aeval z Q‖ + ‖z ^ m * (1 + z)‖ := norm_sub_le _ _
      _ = 2 * ‖aeval z Q‖ + magnitude 1 ^ m * ‖1 + z‖ := by
          rw [norm_mul, norm_mul, norm_pow, hz, Complex.norm_ofNat]
      _ ≤ 2 * 2 ^ b + magnitude 1 ^ m * (1 + magnitude 1) := by
          have := hb z hz
          have := (magnitude_pos 1).le
          gcongr
      _ ≤ 2 ^ (b + 3) := by
          have : (0 : ℝ) < 2 ^ b := by positivity
          rw [pow_add]
          linarith
  rw [pow_mul, ← heval]
  exact one_le_abs_aeval_mul_pow (by positivity) (magnitude_pos 1).le
    (by rw [magnitude_pow_scale, zpow_one]) (by rwa [heval, sub_ne_zero]) hconj

/-- The root itself is among the conjugates that bound a polynomial of it. -/
theorem aeval_root_le {Q : ℤ[X]} {b : ℕ}
    (hb : ∀ z : ℂ, ‖z‖ = magnitude 1 → ‖aeval z Q‖ ≤ 2 ^ b) : aeval (magnitude 1) Q ≤ 2 ^ b := by
  have hcast : aeval ((magnitude 1 : ℝ) : ℂ) Q = ((aeval (magnitude 1) Q : ℝ) : ℂ) :=
    aeval_algebraMap_apply ℂ (magnitude 1) Q
  have hroot := hb (magnitude 1 : ℝ) (by rw [Complex.norm_real, Real.norm_of_nonneg (magnitude_pos 1).le])
  rw [hcast, Complex.norm_real] at hroot
  exact (le_abs_self _).trans hroot

/-- A magnitude is a natural power of the root as soon as it is at least 1. -/
theorem exists_pow_eq_magnitude {k : ℤ} (h : 1 ≤ magnitude k) : ∃ m : ℕ, magnitude k = magnitude 1 ^ m := by
  rw [← magnitude_zero, magnitude_strictMono.le_iff_le] at h
  obtain ⟨m, rfl⟩ := Int.eq_ofNat_of_zero_le h
  exact ⟨m, magnitude_natCast m⟩

theorem two_pow_mul_pred_lt (b : ℕ) :
    (2 : ℝ) ^ ((b + 3) * (Config.scale - 1)) * 2 ^ (b + 3) < 2 ^ ((b + 4) * Config.scale) := by
  have hscale : Config.scale - 1 + 1 = Config.scale := Nat.sub_add_cancel Nat.one_le_two_pow
  rw [← pow_add, ← Nat.mul_succ, Nat.succ_eq_add_one, hscale]
  exact pow_lt_pow_right₀ (by norm_num) (Nat.mul_lt_mul_of_pos_right (by omega) (Nat.two_pow_pos _))

section Distance

variable {v : ℝ} {s b : ℕ} {Q : ℤ[X]} (hv : 0 < v)
  (hQ : aeval (magnitude 1) Q = v * magnitude 1 ^ s)
  (hb : ∀ z : ℂ, ‖z‖ = magnitude 1 → ‖aeval z Q‖ ≤ 2 ^ b) (hs : 4 ≤ v * magnitude 1 ^ s)
  (hmid : ∀ k : ℤ, 2 * v ≠ magnitude k + magnitude (k + 1))

include hQ hb hs hmid

/-- The distance of a real that is, up to a power of the root, such a polynomial, and that is no midpoint,
from a midpoint of its size. -/
theorem magnitude_le_dist_mul_of_near {k : ℤ} (hlo : 2 * v < 2 * (magnitude k * (1 + magnitude 1)))
    (hhi : magnitude k * (1 + magnitude 1) < 4 * v) :
    magnitude k ≤ |2 * v / (1 + magnitude 1) - magnitude k| *
      (2 ^ ((b + 3) * (Config.scale - 1)) * 2 ^ (b + 3)) := by
  have hg2 := magnitude_one_le_two
  have hk := magnitude_pos k
  have hgs : 0 < magnitude 1 ^ s := pow_pos (magnitude_pos 1) s
  have hg : 0 < 1 + magnitude 1 := by linarith [magnitude_pos 1]
  have hks : magnitude (k + s) = magnitude k * magnitude 1 ^ s := by rw [magnitude_add, magnitude_natCast]
  have hwhole : 1 ≤ magnitude (k + s) := by
    rw [hks]
    nlinarith
  obtain ⟨m, hm⟩ := exists_pow_eq_magnitude hwhole
  rw [hks] at hm
  have hsize : magnitude 1 ^ m * (1 + magnitude 1) ≤ 4 * 2 ^ b := by
    have hV := aeval_root_le hb
    rw [hQ] at hV
    rw [← hm]
    nlinarith
  have hdist : 2 * aeval (magnitude 1) Q - magnitude 1 ^ m * (1 + magnitude 1) =
      (2 * v / (1 + magnitude 1) - magnitude k) * ((1 + magnitude 1) * magnitude 1 ^ s) := by
    rw [hQ, ← hm]
    field_simp
  have hne : 2 * aeval (magnitude 1) Q ≠ magnitude 1 ^ m * (1 + magnitude 1) := by
    intro h
    refine hmid k (mul_right_cancel₀ hgs.ne' ?_)
    rw [hQ, ← hm] at h
    rw [magnitude_add]
    linear_combination h
  have hnorm := one_le_dist_mul hb hsize hne
  rw [hdist, abs_mul, abs_of_pos (mul_pos hg hgs)] at hnorm
  calc magnitude k ≤ magnitude k * (|2 * v / (1 + magnitude 1) - magnitude k| *
        ((1 + magnitude 1) * magnitude 1 ^ s) * 2 ^ ((b + 3) * (Config.scale - 1))) :=
        le_mul_of_one_le_right hk.le hnorm
    _ = |2 * v / (1 + magnitude 1) - magnitude k| * (2 ^ ((b + 3) * (Config.scale - 1)) *
        (magnitude 1 ^ m * (1 + magnitude 1))) := by rw [← hm]; ring
    _ ≤ |2 * v / (1 + magnitude 1) - magnitude k| * (2 ^ ((b + 3) * (Config.scale - 1)) *
        2 ^ (b + 3)) := by
        have hb0 : (0 : ℝ) < 2 ^ b := by positivity
        gcongr
        rw [pow_add]
        linarith

include hv

/-- The same real keeps a relative distance from every midpoint (log 11). -/
theorem magnitude_lt_dist_mul (k : ℤ) :
    magnitude k < |2 * v / (1 + magnitude 1) - magnitude k| * 2 ^ ((b + 4) * Config.scale) := by
  have hk := magnitude_pos k
  have hg : 0 < 1 + magnitude 1 := by linarith [magnitude_pos 1]
  have hratio : 2 * v / (1 + magnitude 1) * (1 + magnitude 1) = 2 * v := div_mul_cancel₀ _ hg.ne'
  by_cases hfar : magnitude k / 2 ≤ |2 * v / (1 + magnitude 1) - magnitude k|
  case pos =>
    have hfour : (2 : ℝ) ^ 2 ≤ 2 ^ ((b + 4) * Config.scale) := by
      refine pow_le_pow_right₀ (by norm_num) ?_
      calc 2 ≤ (b + 4) * 1 := by omega
        _ ≤ (b + 4) * Config.scale := Nat.mul_le_mul_left _ Nat.one_le_two_pow
    nlinarith
  case neg =>
    obtain ⟨hbelow, habove⟩ := abs_lt.mp (not_le.mp hfar)
    have hnear := magnitude_le_dist_mul_of_near hQ hb hs hmid (k := k) (by nlinarith) (by nlinarith)
    refine hnear.trans_lt (mul_lt_mul_of_pos_left (two_pow_mul_pred_lt b) ?_)
    by_contra hzero
    rw [le_antisymm (not_lt.mp hzero) (abs_nonneg _), zero_mul] at hnear
    linarith

/-- The distance in the units of a precision that resolves it. -/
theorem separated {p : ℕ} (hp : (b + 4) * Config.scale + 40 ≤ p) (k : ℤ) :
    2 ^ 40 / 2 ^ p * magnitude k < |2 * v / (1 + magnitude 1) - magnitude k| := by
  have hdist := magnitude_lt_dist_mul hv hQ hb hs hmid k
  rw [div_mul_eq_mul_div, div_lt_iff₀ (by positivity)]
  calc 2 ^ 40 * magnitude k
      < 2 ^ 40 * (|2 * v / (1 + magnitude 1) - magnitude k| * 2 ^ ((b + 4) * Config.scale)) := by
        gcongr
    _ = |2 * v / (1 + magnitude 1) - magnitude k| * 2 ^ ((b + 4) * Config.scale + 40) := by ring
    _ ≤ |2 * v / (1 + magnitude 1) - magnitude k| * 2 ^ p := by
        gcongr
        norm_num

end Distance

/-! ## The sum of two magnitudes -/

/-- The exact sum of two operands a distance `d` apart, relative to the dominant magnitude (42_additive.md
R111). -/
noncomputable def relativeMagnitude (same : Bool) (d : ℤ) : ℝ :=
  if same then 1 + magnitude (-d) else 1 - magnitude (-d)

theorem relativeSum_encloses_relativeMagnitude (same : Bool) (d p : ℕ) :
    Encloses p (relativeSum same d p) (relativeMagnitude same d) := relativeSum_encloses same d p

theorem magnitude_neg_mul_pow (d : ℕ) : magnitude (-(d : ℤ)) * magnitude 1 ^ d = 1 := by
  rw [← magnitude_natCast, ← magnitude_add, neg_add_cancel, magnitude_zero]

/-- Without exact cancellation the relative sum is not small. -/
theorem relativeMagnitude_ge {same : Bool} {d : ℤ} (hd : 0 ≤ d) (hcancel : ¬(same = false ∧ d = 0)) :
    1 / 2 ^ 24 ≤ relativeMagnitude same d := by
  cases same with
  | true =>
    have := magnitude_pos (-d)
    simp only [relativeMagnitude, if_true]
    norm_num
    linarith
  | false =>
    have hmono : magnitude (-d) ≤ magnitude (-1) := magnitude_strictMono.monotone (by
      have : d ≠ 0 := fun h => hcancel ⟨rfl, h⟩
      omega)
    have := magnitude_neg_one_le
    simp only [relativeMagnitude, Bool.false_eq_true, if_false]
    linarith

/-- Outside the tie the relative sum is no midpoint (42_additive.md R112). -/
theorem two_mul_relativeMagnitude_ne {same : Bool} {d : ℤ} (hd : 0 ≤ d) (htie : ¬(same = true ∧ d = 1))
    (k : ℤ) : 2 * relativeMagnitude same d ≠ magnitude k + magnitude (k + 1) := by
  cases same with
  | true =>
    intro h
    simp only [relativeMagnitude, if_true, ← magnitude_zero] at h
    have : d ≠ 1 := fun h1 => htie ⟨rfl, h1⟩
    rcases one_apart_of_two_mul_add_eq h <;> omega
  | false =>
    simp only [relativeMagnitude, Bool.false_eq_true, if_false, ← magnitude_zero]
    exact two_mul_magnitude_sub_ne 0 (-d) k

/-- The relative sum as an integer polynomial of the root, times a power of it that makes it whole. -/
noncomputable def sumPolynomial (same : Bool) (d : ℕ) : ℤ[X] :=
  2 ^ 26 * (X ^ d + if same then 1 else -1)

theorem aeval_sumPolynomial {A : Type*} [CommRing A] (x : A) (same : Bool) (d : ℕ) :
    aeval x (sumPolynomial same d) = 2 ^ 26 * (x ^ d + if same then 1 else -1) := by
  cases same <;> simp [sumPolynomial, map_ofNat]

theorem aeval_root_sumPolynomial (same : Bool) (d : ℕ) : aeval (magnitude 1) (sumPolynomial same d) =
    relativeMagnitude same d * magnitude 1 ^ (26 * Config.scale + d) := by
  have hscale : magnitude 1 ^ (26 * Config.scale) = 2 ^ 26 := by
    rw [mul_comm, pow_mul, magnitude_pow_scale, zpow_one]
  have hneg := magnitude_neg_mul_pow d
  rw [aeval_sumPolynomial, pow_add, hscale]
  cases same
  · rw [relativeMagnitude, if_neg Bool.false_ne_true, if_neg Bool.false_ne_true]
    linear_combination (2 ^ 26 : ℝ) * hneg
  · rw [relativeMagnitude, if_pos rfl, if_pos rfl]
    linear_combination -(2 ^ 26 : ℝ) * hneg

theorem norm_aeval_sumPolynomial_le (same : Bool) {d : ℕ} (hd : d < 2 ^ 31) {z : ℂ}
    (hz : ‖z‖ = magnitude 1) : ‖aeval z (sumPolynomial same d)‖ ≤ 2 ^ 283 := by
  have hpow : magnitude 1 ^ d ≤ 2 ^ 256 := by
    have hmono : magnitude d ≤ magnitude (2 ^ 23 * 256) :=
      magnitude_strictMono.monotone (by norm_num; omega)
    rw [magnitude_natCast, magnitude_scale_mul] at hmono
    exact_mod_cast hmono
  have hone : ‖(if same then 1 else -1 : ℂ)‖ = 1 := by cases same <;> simp
  calc ‖aeval z (sumPolynomial same d)‖
      = 2 ^ 26 * ‖z ^ d + if same then 1 else -1‖ := by
        rw [aeval_sumPolynomial, norm_mul, norm_pow, Complex.norm_ofNat]
    _ ≤ 2 ^ 26 * (‖z ^ d‖ + 1) := by
        rw [← hone]
        gcongr
        exact norm_add_le _ _
    _ ≤ 2 ^ 26 * (2 ^ 256 + 2 ^ 256) := by
        rw [norm_pow, hz]
        gcongr
        exact one_le_pow₀ (by norm_num)
    _ = 2 ^ 283 := by rw [← two_mul, ← pow_succ', ← pow_add]

/-- Settles O45: the last precision resolves the distance that the norm leaves from every midpoint. -/
theorem refinementAlwaysDecides : Obligations.RefinementAlwaysDecides := by
  intro same d hd htie hcancel
  have hge : 1 / 2 ^ 24 ≤ relativeMagnitude same d :=
    relativeMagnitude_ge (by positivity) (by exact_mod_cast hcancel)
  have hwhole : (4 : ℝ) ≤ relativeMagnitude same d * magnitude 1 ^ (26 * Config.scale + d) := by
    have hpow : 1 ≤ magnitude 1 ^ d := one_le_pow₀ one_lt_magnitude_one.le
    rw [pow_add, mul_comm 26, pow_mul, magnitude_pow_scale, zpow_one]
    calc (4 : ℝ) = 1 / 2 ^ 24 * (2 ^ 26 * 1) := by norm_num
      _ ≤ relativeMagnitude same d * (2 ^ 26 * magnitude 1 ^ d) := by gcongr
  have hpos : 0 < relativeMagnitude same d := lt_of_lt_of_le (by positivity) hge
  have hlast : 39 < refinements := by decide
  refine nearestRefined_isSome refinements hlast ?_
  obtain ⟨p, hp⟩ : ∃ p, p = 2 ^ 39 * firstPrecision := ⟨_, rfl⟩
  have hfirst : firstPrecision = 128 := rfl
  have hscale := scale_nat
  rw [← hp]
  refine nearestAt_isSome (by omega) (relativeSum_encloses_relativeMagnitude same d p)
    (relativeSum_width same d p) (le_trans (by norm_num) hge) ?_
  exact separated hpos (aeval_root_sumPolynomial same d)
    (fun z hz => norm_aeval_sumPolynomial_le same hd hz) hwhole
    (two_mul_relativeMagnitude_ne (by positivity) (by exact_mod_cast htie)) (by omega)

/-! ## The mantissa of stage 5 -/

/-- A whole number as its own bounds. -/
theorem encloses_natCast (p n : ℕ) : Encloses p ⟨n * 2 ^ p, n * 2 ^ p⟩ n := by
  simp [Encloses]

/-- A whole number below `2^w` is itself a polynomial of the root, times 4 to make it large enough, and
no midpoint. -/
theorem natCast_separated {n w p : ℕ} (hn : 1 ≤ n) (hw : n < 2 ^ w)
    (hp : (w + 2 + 4) * Config.scale + 40 ≤ p) (k : ℤ) :
    2 ^ 40 / 2 ^ p * magnitude k < |2 * (n : ℝ) / (1 + magnitude 1) - magnitude k| := by
  have hn' : (1 : ℝ) ≤ n := by exact_mod_cast hn
  have hpow : magnitude 1 ^ (2 * Config.scale) = 4 := by
    rw [mul_comm, pow_mul, magnitude_pow_scale, zpow_one]
    norm_num
  have hroot : aeval (magnitude 1) (4 * (n : ℤ[X])) = (n : ℝ) * magnitude 1 ^ (2 * Config.scale) := by
    rw [hpow, map_mul, map_ofNat, map_natCast, mul_comm]
  have hconj (z : ℂ) : ‖aeval z (4 * (n : ℤ[X]))‖ ≤ 2 ^ (w + 2) := by
    have hw' : (n : ℝ) ≤ 2 ^ w := by exact_mod_cast hw.le
    rw [map_mul, map_ofNat, map_natCast, norm_mul, Complex.norm_ofNat, Complex.norm_natCast, pow_add]
    linarith
  exact separated (by linarith) hroot (fun z _ => hconj z) (by rw [hpow]; linarith)
    (two_mul_natCast_ne n) hp k

/-- The last precision of stage 5 grows with the width faster than what its mantissas need (log 11). -/
theorem reencode_precision_ge (w : ℕ) :
    (w + 2 + 4) * Config.scale + 40 ≤ 2 ^ (39 + w) * firstPrecision := by
  have hfirst : firstPrecision = 128 := rfl
  have hwidth : w + 1 ≤ 2 ^ w := Nat.lt_two_pow_self
  rw [hfirst, scale_nat, pow_add]
  omega

/-- Settles O54: a mantissa is a whole number, which is no midpoint, and the last precision for its width
resolves the distance that the norm leaves. -/
theorem reencodeAlwaysDecides : Obligations.ReencodeAlwaysDecides := by
  intro c v hne hlt
  have hn : 1 ≤ v.mantissa.natAbs := by omega
  have hlast : 39 + c.width < reencodeRefinements c := by
    have hcount : refinements = 40 := rfl
    rw [reencodeRefinements, hcount]
    omega
  have hprecision := reencode_precision_ge c.width
  have hfloor : 64 ≤ 2 ^ (39 + c.width) * firstPrecision := by
    rw [scale_nat] at hprecision
    omega
  rw [reencode, Option.isSome_map]
  refine nearestRefined_isSome _ hlast ?_
  generalize 2 ^ (39 + c.width) * firstPrecision = p at *
  refine nearestAt_isSome hfloor (encloses_natCast p _) (Nat.le_add_right _ _) ?_
    (natCast_separated hn hlt hprecision)
  exact le_trans (by norm_num) (show (1 : ℝ) ≤ v.mantissa.natAbs by exact_mod_cast hn)

end Sys2Proof.Proofs.Refinement
end

section
/-!
PROOFS. The reference adder is the exact sum rounded to the nearest magnitude (42_additive.md R111, R114).
-/

namespace Sys2Proof.Proofs.ReferenceAdder

open Machine Statements Addition RootOfTwo NearestMagnitude Refinement FieldArithmetic

variable {a b x m : Word}

/-! ## The exact sum -/

/-- The exact sum is the dominant operand times the relative sum (42_additive.md R111). -/
theorem signedMagnitude_add (x m : Word) : signedMagnitude x + signedMagnitude m =
    (if sign x then -1 else 1) *
      (magnitude (logField x) * relativeMagnitude (sameSign x m) (logField x - logField m)) := by
  have hm : magnitude (logField m) =
      magnitude (logField x) * magnitude (-(logField x - logField m)) := by
    rw [← magnitude_add]
    congr 1
    omega
  unfold signedMagnitude relativeMagnitude sameSign
  rw [hm]
  cases sign x <;> cases sign m <;> simp <;> ring

/-- On the adder's domain the operands do not cancel exactly (42_additive.md R101). -/
theorem not_cancel_of_inAddDomain (h : inAddDomain x m = true) :
    ¬(sameSign x m = false ∧ logField x - logField m = 0) := by
  rintro ⟨hs, hd⟩
  obtain ⟨-, -, hne⟩ := inAddDomain_iff.mp h
  exact hne (eq_flipSign_iff.mpr ⟨s31_inj.mp (sub_eq_zero.mp hd), by simpa [sameSign] using hs⟩)

section Ordered

variable (hdom : inAddDomain x m = true) (hle : logField m ≤ logField x)

include hdom hle

theorem relativeMagnitude_pos :
    0 < relativeMagnitude (sameSign x m) (logField x - logField m) :=
  lt_of_lt_of_le (by positivity)
    (relativeMagnitude_ge (sub_nonneg.mpr hle) (not_cancel_of_inAddDomain hdom))

theorem abs_signedMagnitude_add : |signedMagnitude x + signedMagnitude m| =
    magnitude (logField x) * relativeMagnitude (sameSign x m) (logField x - logField m) := by
  have hpos := mul_pos (magnitude_pos (logField x)) (relativeMagnitude_pos hdom hle)
  rw [signedMagnitude_add, abs_mul, abs_of_pos hpos]
  cases sign x <;> simp

/-- The sign of the exact sum is the dominant operand's (42_additive.md R103). -/
theorem signedMagnitude_add_neg_iff :
    signedMagnitude x + signedMagnitude m < 0 ↔ sign x = true := by
  have hpos := mul_pos (magnitude_pos (logField x)) (relativeMagnitude_pos hdom hle)
  rw [signedMagnitude_add]
  cases sign x
  · simpa using hpos.le
  · simpa using hpos

end Ordered

theorem signedMagnitude_add_ne_zero (h : inAddDomain a b = true) :
    signedMagnitude a + signedMagnitude b ≠ 0 := by
  have ordered {x m : Word} (hdom : inAddDomain x m = true) (hle : logField m ≤ logField x) :
      signedMagnitude x + signedMagnitude m ≠ 0 := by
    rw [← abs_pos, abs_signedMagnitude_add hdom hle]
    exact mul_pos (magnitude_pos _) (relativeMagnitude_pos hdom hle)
  rcases le_total (logField b) (logField a) with hle | hle
  · exact ordered h hle
  · rw [add_comm]
    exact ordered (inAddDomain_comm h) hle

/-! ## Both adders, for operands in order of dominance -/

theorem referenceCore_of_le (hle : logField b ≤ logField a) :
    referenceCore a b = mkWord (sign a) (wrap31 (referenceExponent a b)) := by
  simp only [referenceCore, dominant, minor, if_pos hle]

theorem referenceCore_comm (h : inAddDomain a b = true) : referenceCore a b = referenceCore b a := by
  obtain ⟨hdom, hmin⟩ := dominant_comm h
  rw [referenceCore, referenceCore, hdom, hmin]

theorem exactSumCore_of_le (h : inAddDomain a b = true) (hle : logField b ≤ logField a) :
    exactSumCore a b =
      mkWord (sign a) (wrap31 (roundedLog (signedMagnitude a + signedMagnitude b))) := by
  simp only [exactSumCore, signedMagnitude_add_neg_iff h hle, Bool.decide_eq_true]

theorem exactSumCore_comm (a b : Word) : exactSumCore a b = exactSumCore b a := by
  simp only [exactSumCore, add_comm]

/-! ## The cases of the reference exponent -/

theorem sameSign_iff : sameSign x m = true ↔ sign x = sign m := beq_iff_eq

theorem referenceExponent_eq_ite (x m : Word) : referenceExponent x m =
    if sameSign x m = true then
      if logField x - logField m = 0 then logField x + 2 ^ 23
      else if logField x - logField m = 1 then evenOf (logField m + 2 ^ 23)
      else searchedExponent x m
    else if logField x - logField m = 2 ^ 23 then logField m
    else searchedExponent x m := rfl

/-- Equal signs and equal fields double (42_additive.md R113). -/
theorem referenceExponent_of_doubling (hs : sign x = sign m) (hd : logField x = logField m) :
    referenceExponent x m = logField x + 2 ^ 23 := by
  rw [referenceExponent_eq_ite, if_pos (sameSign_iff.mpr hs), if_pos (by omega)]

/-- Equal signs one field apart are the tie (42_additive.md R112). -/
theorem referenceExponent_of_tie (hs : sign x = sign m) (hd : logField x = logField m + 1) :
    referenceExponent x m = evenOf (logField m + 2 ^ 23) := by
  rw [referenceExponent_eq_ite, if_pos (sameSign_iff.mpr hs), if_neg (by omega), if_pos (by omega)]

/-- Different signs a field of `N` apart halve (42_additive.md R113). -/
theorem referenceExponent_of_halving (hs : sign x ≠ sign m) (hd : logField x = logField m + 2 ^ 23) :
    referenceExponent x m = logField m := by
  rw [referenceExponent_eq_ite, if_neg (mt sameSign_iff.mp hs), if_pos (by omega)]

/-- What the search gives where the refinement answers. The definition is opened as a function, without its
operands: the kernel would otherwise evaluate the refinement. -/
theorem searchedExponent_of_some {r : ℤ}
    (hr : nearestExponent (relativeSum (sameSign x m) (logField x - logField m).toNat) = some r) :
    searchedExponent x m = logField x + r := by
  have hdef : searchedExponent = searchedExponent := rfl
  conv at hdef => rhs; delta searchedExponent
  rw [hdef]
  simp only [hr]

/-- Every other exponent is searched for (42_additive.md R114). -/
theorem referenceExponent_cases (x m : Word) :
    sign x = sign m ∧ logField x = logField m ∨ sign x = sign m ∧ logField x = logField m + 1 ∨
      sign x ≠ sign m ∧ logField x = logField m + 2 ^ 23 ∨
      ¬(sameSign x m = true ∧ logField x - logField m = 1) ∧
        referenceExponent x m = searchedExponent x m := by
  rw [referenceExponent_eq_ite]
  by_cases hs : sign x = sign m
  · rw [if_pos (sameSign_iff.mpr hs)]
    by_cases hd : logField x - logField m = 0
    · exact .inl ⟨hs, by omega⟩
    · by_cases hd1 : logField x - logField m = 1
      · exact .inr (.inl ⟨hs, by omega⟩)
      · rw [if_neg hd, if_neg hd1]
        exact .inr (.inr (.inr ⟨fun h => hd1 h.2, rfl⟩))
  · have hs' := mt sameSign_iff.mp hs
    rw [if_neg hs']
    by_cases hd : logField x - logField m = 2 ^ 23
    · exact .inr (.inr (.inl ⟨hs, by omega⟩))
    · rw [if_neg hd]
      exact .inr (.inr (.inr ⟨fun h => hs' h.1, rfl⟩))

/-! ## The exact sum in the exact cases -/

theorem abs_add_of_sign_eq (hs : sign a = sign b) :
    |signedMagnitude a + signedMagnitude b| = magnitude (logField a) + magnitude (logField b) := by
  have ha := magnitude_pos (logField a)
  have hb := magnitude_pos (logField b)
  unfold signedMagnitude
  rw [hs, ← mul_add, abs_mul, abs_of_pos (add_pos ha hb)]
  cases sign b <;> simp

theorem abs_add_of_sign_ne (hs : sign a ≠ sign b) :
    |signedMagnitude a + signedMagnitude b| =
      |magnitude (logField a) - magnitude (logField b)| := by
  unfold signedMagnitude
  rw [Bool.eq_not_of_ne hs]
  cases sign b
  · simp [neg_add_eq_sub, abs_sub_comm]
  · simp [sub_eq_add_neg]

theorem magnitude_add_scale (x : ℤ) : magnitude (x + 2 ^ 23) = 2 * magnitude x := by
  rw [magnitude_add, ← scale_int, magnitude_scale, mul_comm]

/-- The sum of neighbours is a midpoint, a field of `N` higher (42_additive.md R112). -/
theorem magnitude_add_succ (x : ℤ) :
    magnitude x + magnitude (x + 1) = midpointAbove (x + 2 ^ 23) := by
  rw [midpointAbove, add_right_comm, magnitude_add_scale, magnitude_add_scale]
  ring

/-! ## Rounding -/

/-- Where the refinement answers, outside the tie, the relative sum lies strictly between the midpoints
around the answer (42_additive.md R114). -/
theorem relativeMagnitude_between {same : Bool} {d : ℕ} {r : ℤ}
    (hr : nearestExponent (relativeSum same d) = some r) (htie : ¬(same = true ∧ (d : ℤ) = 1))
    (hcancel : ¬(same = false ∧ (d : ℤ) = 0)) :
    midpointAbove (r - 1) < relativeMagnitude same d ∧
      relativeMagnitude same d < midpointAbove r := by
  have hpos : (0 : ℝ) ≤ relativeMagnitude same d :=
    le_trans (by positivity) (relativeMagnitude_ge (Int.natCast_nonneg d) hcancel)
  obtain ⟨hlo, hhi⟩ := nearestExponent_spec (relativeSum_encloses_relativeMagnitude same d) hpos hr
  obtain ⟨hle, hlt⟩ := midpointAbove_bounds_of_pow_bounds hpos hlo hhi
  refine ⟨hle.lt_of_ne fun heq => ?_, hlt⟩
  refine two_mul_relativeMagnitude_ne (Int.natCast_nonneg d) htie (r - 1) ?_
  rw [← heq, midpointAbove]
  ring

section Ordered

variable (hdom : inAddDomain x m = true) (hle : logField m ≤ logField x)

include hdom hle

/-- A relative sum between two midpoints rounds to the field between them. -/
theorem roundedLog_of_relative_between {r : ℤ}
    (hlo : midpointAbove (r - 1) < relativeMagnitude (sameSign x m) (logField x - logField m))
    (hhi : relativeMagnitude (sameSign x m) (logField x - logField m) < midpointAbove r) :
    roundedLog (signedMagnitude x + signedMagnitude m) = logField x + r := by
  have hx := magnitude_pos (logField x)
  apply roundedLog_of_between <;> rw [abs_signedMagnitude_add hdom hle]
  · rw [add_sub_assoc, ← magnitude_mul_midpointAbove]
    gcongr
  · rw [← magnitude_mul_midpointAbove]
    gcongr

/-- The rounded exact sum has the reference exponent, wherever the refinement decides (42_additive.md
R111 to R114). -/
theorem roundedLog_eq_referenceExponent
    (hdecided : (nearestExponent
        (relativeSum (sameSign x m) (logField x - logField m).toNat)).isSome = true ∨
      sameSign x m = true ∧ logField x - logField m = 1) :
    roundedLog (signedMagnitude x + signedMagnitude m) = referenceExponent x m := by
  obtain ⟨hs, hd⟩ | ⟨hs, hd⟩ | ⟨hs, hd⟩ | ⟨htie, hsearch⟩ := referenceExponent_cases x m
  · rw [referenceExponent_of_doubling hs hd]
    apply roundedLog_of_magnitude
    rw [abs_add_of_sign_eq hs, ← hd, magnitude_add_scale, two_mul]
  · rw [referenceExponent_of_tie hs hd]
    apply roundedLog_of_tie
    rw [abs_add_of_sign_eq hs, hd, add_comm, magnitude_add_succ]
  · rw [referenceExponent_of_halving hs hd]
    apply roundedLog_of_magnitude
    rw [abs_add_of_sign_ne hs, hd, magnitude_add_scale, two_mul, add_sub_cancel_right,
      abs_of_pos (magnitude_pos _)]
  · obtain ⟨r, hr⟩ := Option.isSome_iff_exists.mp (hdecided.resolve_right htie)
    have hd : ((logField x - logField m).toNat : ℤ) = logField x - logField m :=
      Int.toNat_of_nonneg (sub_nonneg.mpr hle)
    obtain ⟨hlo, hhi⟩ := relativeMagnitude_between hr (by rwa [hd])
      (by rw [hd]; exact not_cancel_of_inAddDomain hdom)
    rw [hd] at hlo hhi
    rw [roundedLog_of_relative_between hdom hle hlo hhi, hsearch,
      searchedExponent_of_some hr]

end Ordered

theorem sameSign_comm (a b : Word) : sameSign a b = sameSign b a := by
  rw [Bool.eq_iff_iff, sameSign_iff, sameSign_iff, eq_comm]

/-- Settles O44: with the operands in order of dominance, both adders have the dominant sign, and the
rounded exact sum has the reference exponent. -/
theorem decidedSumsAreRoundedExactSums : Obligations.DecidedSumsAreRoundedExactSums := by
  have ordered {x m : Word} (hdom : inAddDomain x m = true) (hle : logField m ≤ logField x)
      (hdecided : (nearestExponent
          (relativeSum (sameSign x m) (logField x - logField m).natAbs)).isSome = true ∨
        sameSign x m = true ∧ (logField x - logField m).natAbs = 1) :
      referenceCore x m = exactSumCore x m := by
    have habs : (logField x - logField m).natAbs = (logField x - logField m).toNat := by omega
    rw [habs] at hdecided
    rw [referenceCore_of_le hle, exactSumCore_of_le hdom hle,
      roundedLog_eq_referenceExponent hdom hle (hdecided.imp_right fun h => ⟨h.1, by omega⟩)]
  intro a b hdom hdecided
  rcases le_total (logField b) (logField a) with hle | hle
  · exact ordered hdom hle hdecided
  · rw [referenceCore_comm hdom, exactSumCore_comm]
    refine ordered (inAddDomain_comm hdom) hle ?_
    rwa [sameSign_comm, ← Int.natAbs_neg, neg_sub]

/-- Settles O43: the refinement decides every pair of the domain but the tie. -/
theorem referenceAdderIsRoundedExactSum : Obligations.ReferenceAdderIsRoundedExactSum := by
  intro a b hdom
  refine decidedSumsAreRoundedExactSums a b hdom ?_
  obtain ⟨ha, hb, -⟩ := inAddDomain_iff.mp hdom
  have ha' := logField_bounds_of_plain ha
  have hb' := logField_bounds_of_plain hb
  by_cases htie : sameSign a b = true ∧ (logField a - logField b).natAbs = 1
  · exact .inr htie
  · refine .inl (refinementAlwaysDecides _ _ (by omega) htie fun h => ?_)
    exact not_cancel_of_inAddDomain hdom ⟨h.1, Int.natAbs_eq_zero.mp h.2⟩

end Sys2Proof.Proofs.ReferenceAdder
end

section
/-!
PROOFS. What the reference adder does in the exact cases, and where it absorbs the smaller operand
(42_additive.md R112, R113, R115).
-/

namespace Sys2Proof.Proofs.ReferenceLaws

open Machine Statements Addition RootOfTwo NearestMagnitude Refinement ReferenceAdder FieldArithmetic

variable {a b : Word}

/-! ## The tie -/

/-- The exact sum of neighbours is a midpoint (42_additive.md R112). -/
theorem abs_add_of_one_apart (hs : sign a = sign b) (hd : |logField a - logField b| = 1) :
    |signedMagnitude a + signedMagnitude b| = midpointAbove (min (logField a) (logField b) + 2 ^ 23) := by
  rw [abs_add_of_sign_eq hs, ← magnitude_add_succ]
  rcases (abs_eq zero_le_one).mp hd with h | h
  · have hmin : min (logField a) (logField b) = logField b := min_eq_right (by omega)
    have ha : logField a = logField b + 1 := by omega
    rw [hmin, ha, add_comm]
  · have hmin : min (logField a) (logField b) = logField a := min_eq_left (by omega)
    have hb : logField b = logField a + 1 := by omega
    rw [hmin, hb]

/-- An exact sum on a midpoint has neighbours of one sign as operands (42_additive.md R112). -/
theorem one_apart_of_abs_add_eq {k : ℤ}
    (h : |signedMagnitude a + signedMagnitude b| = midpointAbove k) :
    sign a = sign b ∧ |logField a - logField b| = 1 := by
  by_cases hs : sign a = sign b
  · refine ⟨hs, (abs_eq zero_le_one).mpr ?_⟩
    rw [abs_add_of_sign_eq hs, midpointAbove] at h
    have := one_apart_of_two_mul_add_eq (x := logField a) (z := logField b) (k := k) (by linarith)
    omega
  · exfalso
    rw [abs_add_of_sign_ne hs, midpointAbove] at h
    rcases abs_choice (magnitude (logField a) - magnitude (logField b)) with habs | habs
    · exact two_mul_magnitude_sub_ne (logField a) (logField b) k (by linarith)
    · exact two_mul_magnitude_sub_ne (logField b) (logField a) k (by linarith)

/-- A real as far above one magnitude as below the next is their midpoint (42_additive.md R111). -/
theorem sub_eq_sub_iff_eq_midpointAbove {S : ℝ} {k : ℤ} :
    S - magnitude k = magnitude (k + 1) - S ↔ S = midpointAbove k := by
  rw [midpointAbove]
  constructor <;> intro h <;> linarith

/-- The reference result of a tie (42_additive.md R112). -/
theorem referenceCore_of_one_apart (hs : sign a = sign b) (hd : |logField a - logField b| = 1) :
    referenceCore a b =
      mkWord (sign a) (wrap31 (evenOf (min (logField a) (logField b) + 2 ^ 23))) := by
  rw [referenceCore]
  obtain ⟨hdom, hmin, hle⟩ | ⟨hdom, hmin, hlt⟩ := dominant_minor a b
  · rw [abs_of_nonneg (by omega)] at hd
    rw [hdom, hmin, referenceExponent_of_tie hs (by omega), min_eq_right hle]
  · rw [abs_of_neg (by omega)] at hd
    rw [hdom, hmin, referenceExponent_of_tie hs.symm (by omega), min_eq_left hlt.le, hs]

/-- Settles O46: the exact sums on a midpoint are those of neighbours of one sign. -/
theorem tieIsOneStepApartAndGoesToEven : Obligations.TieIsOneStepApartAndGoesToEven := by
  refine ⟨fun a b _ => ⟨⟨fun h => ?tie, fun ⟨hs, hd⟩ => ?apart⟩, fun ⟨hs, hd⟩ => ⟨?sum, ?mid, ?result⟩⟩,
    by decide, by decide⟩
  case tie => exact one_apart_of_abs_add_eq (sub_eq_sub_iff_eq_midpointAbove.mp h)
  case apart =>
    rw [abs_add_of_one_apart hs hd, floor_scale_mul_logb_midpointAbove]
    exact sub_eq_sub_iff_eq_midpointAbove.mpr rfl
  case sum =>
    have hroot : (2 : ℝ) ^ (1 / (2 : ℝ) ^ 23) = magnitude 1 := by simp [magnitude, Config.fracBits]
    rw [abs_add_of_one_apart hs hd, ← magnitude_add_succ, magnitude_add, hroot]
    ring
  case mid => rw [abs_add_of_one_apart hs hd, midpointAbove]
  case result => exact referenceCore_of_one_apart hs hd

/-! ## Doubling and halving -/

/-- Different signs a field of `N` apart halve the dominant operand (42_additive.md R113). -/
theorem abs_add_of_scale_apart (hs : sign a ≠ sign b) (hd : |logField a - logField b| = 2 ^ 23) :
    |signedMagnitude a + signedMagnitude b| = magnitude (min (logField a) (logField b)) := by
  rw [abs_add_of_sign_ne hs]
  rcases (abs_eq (by norm_num)).mp hd with h | h
  · have ha : logField a = logField b + 2 ^ 23 := by omega
    rw [min_eq_right (by omega), ha, magnitude_add_scale, two_mul, add_sub_cancel_right,
      abs_of_pos (magnitude_pos _)]
  · have hb : logField b = logField a + 2 ^ 23 := by omega
    rw [min_eq_left (by omega), hb, magnitude_add_scale, abs_sub_comm, two_mul, add_sub_cancel_right,
      abs_of_pos (magnitude_pos _)]

/-- A representable exact sum doubles or halves (42_additive.md R113). -/
theorem eq_or_scale_apart_of_abs_add_eq {k : ℤ}
    (h : |signedMagnitude a + signedMagnitude b| = magnitude k) :
    a = b ∨ sign a ≠ sign b ∧ |logField a - logField b| = 2 ^ 23 := by
  by_cases hs : sign a = sign b
  · rw [abs_add_of_sign_eq hs] at h
    exact .inl (word_ext hs (s31_inj.mp (eq_of_magnitude_add_eq h)))
  · refine .inr ⟨hs, (abs_eq (by norm_num)).mpr ?_⟩
    rw [abs_add_of_sign_ne hs] at h
    rcases abs_choice (magnitude (logField a) - magnitude (logField b)) with habs | habs
    · rw [habs] at h
      have := eq_add_scale_of_magnitude_sub_eq h
      omega
    · rw [habs, neg_sub] at h
      have := eq_add_scale_of_magnitude_sub_eq h
      omega

theorem referenceCore_self (a : Word) :
    referenceCore a a = mkWord (sign a) (wrap31 (logField a + 2 ^ 23)) := by
  rw [referenceCore_of_le le_rfl, referenceExponent_of_doubling rfl rfl]

theorem referenceCore_of_halving (hs : sign a ≠ sign b) (hd : logField a - logField b = 2 ^ 23) :
    referenceCore a b = mkWord (sign a) (field b) := by
  rw [referenceCore_of_le (by omega), referenceExponent_of_halving hs (by omega), wrap31_logField]

/-- Settles O47: by the coordinates of magnitudes, only a doubled or a halved magnitude is one. -/
theorem exactSumsAreDoublingOrHalving : Obligations.ExactSumsAreDoublingOrHalving := by
  refine ⟨fun a b _ => ⟨fun ⟨_, h⟩ => eq_or_scale_apart_of_abs_add_eq h, ?representable⟩,
    fun a _ => referenceCore_self a, fun a b hdom hs hd => ?halving,
    fun a b => signedMagnitude_add_ne_zero, by decide, by decide, by decide, by decide⟩
  case representable =>
    rintro (rfl | ⟨hs, hd⟩)
    · refine ⟨logField a + 2 ^ 23, ?_⟩
      rw [abs_add_of_sign_eq rfl, magnitude_add_scale, two_mul]
    · exact ⟨_, abs_add_of_scale_apart hs hd⟩
  case halving =>
    have h := referenceCore_of_halving hs hd
    exact ⟨h, (referenceCore_comm hdom).symm.trans h⟩

/-! ## Absorption -/

theorem midpointAbove_strictMono : StrictMono midpointAbove := by
  intro j k h
  have hlo := magnitude_strictMono h
  have hhi := magnitude_strictMono (add_lt_add_left h 1)
  unfold midpointAbove
  linarith

/-- The thresholds of R115, bracketed by the interval arithmetic at 128 bits. -/
theorem threshold_bounds :
    2 ^ 128 + 2 * (exp2Neg 128 205762206).hi < (exp2Frac 128 Config.fracBits 1).lo ∧
      (exp2Frac 128 Config.fracBits 1).hi ≤ 2 ^ 128 + 2 * (exp2Neg 128 205762205).lo := by
  decide +kernel

theorem magnitude_threshold :
    magnitude (-205762206) < (magnitude 1 - 1) / 2 ∧
      (magnitude 1 - 1) / 2 ≤ magnitude (-205762205) := by
  obtain ⟨habove, hbelow⟩ := threshold_bounds
  obtain ⟨hglo, hghi⟩ := exp2Frac_encloses 128 Config.fracBits 1 (by decide)
  have hg : (2 : ℝ) ^ (((1 : ℕ) : ℝ) / 2 ^ Config.fracBits) = magnitude 1 := by simp [magnitude]
  rw [hg] at hglo hghi
  have hhi := (exp2Neg_encloses 128 205762206).2
  have hlo := (exp2Neg_encloses 128 205762205).1
  have habove : (2 : ℝ) ^ 128 + 2 * (exp2Neg 128 205762206).hi < (exp2Frac 128 Config.fracBits 1).lo := by
    exact_mod_cast habove
  have hbelow : ((exp2Frac 128 Config.fracBits 1).hi : ℝ) ≤ 2 ^ 128 + 2 * (exp2Neg 128 205762205).lo := by
    exact_mod_cast hbelow
  have h128 : (0 : ℝ) < 2 ^ 128 := by positivity
  constructor
  · refine lt_of_mul_lt_mul_right ?_ h128.le
    push_cast at hhi
    linarith
  · refine le_of_mul_le_mul_right ?_ h128
    push_cast at hlo
    linarith

/-- The smaller of two operands of one sign is below half the step above the greater one exactly from the
stated distance on (42_additive.md R115). -/
theorem threshold_of_sign_eq (D : ℤ) : 205762206 ≤ D ↔ magnitude (-D) < (magnitude 1 - 1) / 2 := by
  obtain ⟨habove, hbelow⟩ := magnitude_threshold
  constructor
  · intro hD
    exact (magnitude_strictMono.monotone (show -D ≤ -205762206 by omega)).trans_lt habove
  · intro hlt
    have := magnitude_strictMono.lt_iff_lt.mp (hlt.trans_le hbelow)
    omega

theorem magnitude_one_mul_neg_one : magnitude 1 * magnitude (-1) = 1 := by
  rw [← magnitude_add, add_neg_cancel, magnitude_zero]

/-- For different signs the step below the greater operand counts, which is the step above it one field
lower (42_additive.md R115). -/
theorem threshold_of_sign_ne (D : ℤ) :
    205762207 ≤ D ↔ magnitude (-D) < (1 - magnitude (-1)) / 2 := by
  have hD : magnitude (-D) = magnitude (-(D - 1)) * magnitude (-1) := by
    rw [← magnitude_add]
    congr 1
    omega
  have hstep : (1 - magnitude (-1)) / 2 = (magnitude 1 - 1) / 2 * magnitude (-1) := by
    linear_combination -magnitude_one_mul_neg_one / 2
  rw [hD, hstep, mul_lt_mul_iff_left₀ (magnitude_pos _), ← threshold_of_sign_eq]
  omega

/-- The rounded exact sum relative to the dominant operand, for operands that are no tie. -/
theorem exists_relative_between {same : Bool} {d : ℕ} (hd : d < 2 ^ 31)
    (htie : ¬(same = true ∧ d = 1)) (hcancel : ¬(same = false ∧ d = 0)) :
    ∃ r : ℤ, midpointAbove (r - 1) < relativeMagnitude same d ∧
      relativeMagnitude same d < midpointAbove r := by
  obtain ⟨r, hr⟩ := Option.isSome_iff_exists.mp (refinementAlwaysDecides same d hd htie hcancel)
  exact ⟨r, relativeMagnitude_between hr (by exact_mod_cast htie) (by exact_mod_cast hcancel)⟩

theorem relativeMagnitude_le_two {same : Bool} {d : ℤ} (hd : 0 ≤ d) : relativeMagnitude same d ≤ 2 := by
  have hle : magnitude (-d) ≤ 1 := by
    simpa using magnitude_strictMono.monotone (show -d ≤ 0 by omega)
  have hpos := magnitude_pos (-d)
  cases same
  · rw [relativeMagnitude, if_neg Bool.false_ne_true]
    linarith
  · rw [relativeMagnitude, if_pos rfl]
    linarith

/-- A relative sum rounds to a field at most `N` above and 24 `N` below the dominant one. -/
theorem bounds_of_relative_between {v : ℝ} {r : ℤ} (hlo : midpointAbove (r - 1) < v)
    (hhi : v < midpointAbove r) (hv : 1 / 2 ^ 24 ≤ v) (hv2 : v ≤ 2) : -2 ^ 30 ≤ r ∧ r < 2 ^ 30 := by
  have htwo : magnitude (2 ^ 23 * 1) = 2 := by rw [magnitude_scale_mul, zpow_one]
  have hsmall : magnitude (2 ^ 23 * -24) = 1 / 2 ^ 24 := by
    rw [magnitude_scale_mul]
    norm_num
  have hup := magnitude_strictMono.lt_iff_lt.mp
    (((magnitude_lt_midpointAbove (r - 1)).trans hlo).trans_le (hv2.trans_eq htwo.symm))
  have hdown := magnitude_strictMono.lt_iff_lt.mp
    ((hsmall.trans_le hv).trans_lt (hhi.trans (midpointAbove_lt_magnitude r)))
  omega

/-- An exponent near the dominant field wraps to it only if it is the dominant field. -/
theorem mkWord_wrap31_add_eq_iff {r : ℤ} (hr : -2 ^ 30 ≤ r ∧ r < 2 ^ 30) :
    mkWord (sign a) (wrap31 (logField a + r)) = a ↔ r = 0 := by
  obtain ⟨hlo, hhi⟩ := hr
  constructor
  · intro h
    have hfield : field a + wrap31 r = field a := by
      rw [← wrap31_logField a, ← wrap31_add, wrap31_logField, ← field_mkWord (sign a) (wrap31 _), h]
    have hzero : s31 (wrap31 r) = s31 0 := congrArg s31 (by simpa using hfield)
    rwa [s31_wrap31_of_bounds hlo hhi] at hzero
  · rintro rfl
    rw [add_zero, wrap31_logField, mkWord_sign_field]

theorem evenOf_bounds (n : ℤ) : n ≤ evenOf n ∧ evenOf n ≤ n + 1 := by
  unfold evenOf
  split <;> omega

/-- A tie neither gives back the dominant operand nor has a relative sum that rounds to 1. -/
theorem referenceCore_ne_left_of_tie (hs : sign a = sign b) (hd : logField a = logField b + 1) :
    referenceCore a b ≠ a ∧ ¬relativeMagnitude true 1 < midpointAbove 0 := by
  constructor
  · obtain ⟨r, hr⟩ : ∃ r, evenOf (logField b + 2 ^ 23) = logField a + r := ⟨_, (add_sub_cancel _ _).symm⟩
    have hbounds := evenOf_bounds (logField b + 2 ^ 23)
    rw [referenceCore_of_le (by omega), referenceExponent_of_tie hs hd, hr, ne_eq,
      mkWord_wrap31_add_eq_iff (by omega)]
    omega
  · have hone := magnitude_one_mul_neg_one
    rw [relativeMagnitude, if_pos rfl, midpointAbove, magnitude_zero, zero_add]
    nlinarith [magnitude_one_le_two, one_lt_magnitude_one]

/-- A dominant operand is the result exactly when the relative sum rounds to 1 (42_additive.md R115). -/
theorem referenceCore_eq_left_iff (hdom : inAddDomain a b = true) (hlt : logField b < logField a) :
    referenceCore a b = a ↔
      midpointAbove (-1) < relativeMagnitude (sameSign a b) (logField a - logField b) ∧
        relativeMagnitude (sameSign a b) (logField a - logField b) < midpointAbove 0 := by
  by_cases htie : sameSign a b = true ∧ logField a - logField b = 1
  case pos =>
    obtain ⟨hs, hd⟩ := htie
    obtain ⟨hne, hnot⟩ := referenceCore_ne_left_of_tie (sameSign_iff.mp hs) (by omega)
    rw [hs, hd]
    exact iff_of_false hne fun h => hnot h.2
  case neg =>
    obtain ⟨ha, hb, -⟩ := inAddDomain_iff.mp hdom
    have ha' := logField_bounds_of_plain ha
    have hb' := logField_bounds_of_plain hb
    have hcancel := not_cancel_of_inAddDomain hdom
    obtain ⟨d, hd⟩ := Int.eq_ofNat_of_zero_le (sub_nonneg.mpr hlt.le)
    have hge := relativeMagnitude_ge (sub_nonneg.mpr hlt.le) hcancel
    have hle := relativeMagnitude_le_two (same := sameSign a b) (sub_nonneg.mpr hlt.le)
    obtain ⟨r, hlo, hhi⟩ := exists_relative_between (same := sameSign a b) (d := d) (by omega)
      (fun h => htie ⟨h.1, by omega⟩) fun h => hcancel ⟨h.1, by omega⟩
    rw [← hd] at hlo hhi
    rw [referenceAdderIsRoundedExactSum a b hdom, exactSumCore_of_le hdom hlt.le,
      roundedLog_of_relative_between hdom hlt.le hlo hhi,
      mkWord_wrap31_add_eq_iff (bounds_of_relative_between hlo hhi hge hle)]
    constructor
    · rintro rfl
      exact ⟨hlo, hhi⟩
    · rintro ⟨hlo', hhi'⟩
      have hup := midpointAbove_strictMono.lt_iff_lt.mp (hlo.trans hhi')
      have hdown := midpointAbove_strictMono.lt_iff_lt.mp (hlo'.trans hhi)
      omega

/-- Settles O48: both comparisons with a midpoint are comparisons with half a step. -/
theorem absorptionThresholds : Obligations.AbsorptionThresholds := by
  refine ⟨fun a b hdom hlt => ⟨fun hs => ?same, fun hs => ?opposite⟩,
    fun D _ => ⟨threshold_of_sign_eq D, threshold_of_sign_ne D⟩, by decide +kernel, by decide +kernel⟩
  case same =>
    have hpos := magnitude_pos (-(logField a - logField b))
    have hbelow := midpointAbove_lt_magnitude (-1)
    rw [neg_add_cancel, magnitude_zero] at hbelow
    rw [referenceCore_eq_left_iff hdom hlt, threshold_of_sign_eq, sameSign_iff.mpr hs, relativeMagnitude,
      if_pos rfl, and_iff_right (by linarith), midpointAbove, magnitude_zero, zero_add]
    constructor <;> intro h <;> linarith
  case opposite =>
    have hpos := magnitude_pos (-(logField a - logField b))
    have habove := magnitude_lt_midpointAbove 0
    rw [magnitude_zero] at habove
    have hs' : sameSign a b = false := by simpa [sameSign] using hs
    rw [referenceCore_eq_left_iff hdom hlt, threshold_of_sign_ne, hs', relativeMagnitude,
      if_neg Bool.false_ne_true, and_iff_left (by linarith), midpointAbove, neg_add_cancel,
      magnitude_zero]
    constructor <;> intro h <;> linarith

end Sys2Proof.Proofs.ReferenceLaws
end

section
/-!
PROOFS. Stage 1 of the staged adder: the integer part, and the mantissa that reconstructs the operand
(42_additive.md R106).
-/

namespace Sys2Proof.Proofs.Decompose

open Machine RootOfTwo NearestMagnitude

variable {c : Config.Staged}

theorem wf_iff : c.wf = true ↔ 2 ≤ c.width ∧ c.offset = 1 := by
  simp [Config.Staged.wf]

/-! ## The integer part -/

theorem integerPartOf_floor (x : ℤ) : integerPartOf .floor x = x / 2 ^ 23 :=
  Int.fdiv_eq_ediv_of_nonneg x (by decide)

theorem integerPartOf_truncate_of_nonneg {x : ℤ} (h : 0 ≤ x) :
    integerPartOf .truncate x = x / 2 ^ 23 := Int.tdiv_eq_ediv_of_nonneg h

theorem integerPartOf_truncate_of_neg {x : ℤ} (h : x < 0) :
    integerPartOf .truncate x = -(-x / 2 ^ 23) := by
  have hneg := Int.neg_tdiv (-x) (2 ^ 23)
  rw [neg_neg, Int.tdiv_eq_ediv_of_nonneg (a := -x) (by omega)] at hneg
  exact hneg

/-- Either integer part leaves a fraction below 1 in magnitude, none for a whole number, and no negative
one unless a negative number is truncated. -/
theorem fraction_bounds (i : Config.IntegerPart) (x : ℤ) :
    |x - integerPartOf i x * 2 ^ 23| < 2 ^ 23 ∧
      (x % 2 ^ 23 = 0 → x - integerPartOf i x * 2 ^ 23 = 0) ∧
      (i = .floor ∨ 0 ≤ x → 0 ≤ x - integerPartOf i x * 2 ^ 23) := by
  rw [abs_lt]
  cases i with
  | floor =>
    rw [integerPartOf_floor]
    omega
  | truncate =>
    rcases lt_or_ge x 0 with hx | hx
    · rw [integerPartOf_truncate_of_neg hx]
      simp only [reduceCtorEq, false_or]
      omega
    · rw [integerPartOf_truncate_of_nonneg hx]
      omega

/-- Truncation moves toward 0. -/
theorem abs_truncate_le (x : ℤ) : |integerPartOf .truncate x * 2 ^ 23| ≤ |x| := by
  rcases lt_or_ge x 0 with hx | hx
  · rw [integerPartOf_truncate_of_neg hx, abs_of_neg hx, abs_of_nonpos (by omega)]
    omega
  · rw [integerPartOf_truncate_of_nonneg hx, abs_of_nonneg hx, abs_of_nonneg (by omega)]
    omega

/-! ## The mantissa -/

theorem mantissaLog_of_wf (hwf : c.wf = true) (fraction : ℤ) :
    mantissaLog c fraction = fraction + ((c.width : ℤ) - 2) * 2 ^ 23 := by
  obtain ⟨-, hoffset⟩ := wf_iff.mp hwf
  rw [mantissaLog, hoffset, scale_int]
  ring

/-- The mantissa is the floor of the exact one, or one more where that is still below 1. -/
theorem mantissaMagnitude_cases (c : Config.Staged) (s : Bool) (fraction : ℤ) :
    mantissaMagnitude c s fraction = ⌊magnitude (mantissaLog c fraction)⌋₊ ∨
      mantissaMagnitude c s fraction = ⌊magnitude (mantissaLog c fraction)⌋₊ + 1 ∧
        mantissaMagnitude c s fraction < 2 ^ (c.width - 1) := by
  have hfloor : (if 0 ≤ mantissaLog c fraction then antilogFloor (mantissaLog c fraction).toNat else 0) =
      ⌊magnitude (mantissaLog c fraction)⌋₊ := by
    split
    case isTrue h => rw [antilogFloor_eq_floor, Int.toNat_of_nonneg h]
    case isFalse h =>
      refine (Nat.floor_eq_zero.mpr ?_).symm
      simpa using magnitude_strictMono (not_le.mp h)
  simp only [mantissaMagnitude, hfloor, mantissaOne]
  split
  · exact .inl rfl
  · split
    case isTrue h => exact .inr ⟨rfl, h.2⟩
    case isFalse => exact .inl rfl

theorem mantissaMagnitude_lt (hwf : c.wf = true) (s : Bool) {fraction : ℤ} (hf : fraction < 2 ^ 23) :
    mantissaMagnitude c s fraction < 2 ^ (c.width - 1) := by
  obtain h | ⟨-, h⟩ := mantissaMagnitude_cases c s fraction
  · rw [h, Nat.floor_lt (magnitude_pos _).le]
    obtain ⟨hwidth, -⟩ := wf_iff.mp hwf
    have hlt : mantissaLog c fraction < 2 ^ 23 * ((c.width - 1 : ℕ) : ℤ) := by
      rw [mantissaLog_of_wf hwf]
      omega
    have hmono := magnitude_strictMono hlt
    rw [magnitude_scale_mul, zpow_natCast] at hmono
    exact_mod_cast hmono
  · exact h

theorem le_mantissaMagnitude (hwf : c.wf = true) (s : Bool) {fraction : ℤ} (hf : 0 ≤ fraction) :
    2 ^ (c.width - 2) ≤ mantissaMagnitude c s fraction := by
  have hfloor : 2 ^ (c.width - 2) ≤ ⌊magnitude (mantissaLog c fraction)⌋₊ := by
    obtain ⟨hwidth, -⟩ := wf_iff.mp hwf
    have hle : 2 ^ 23 * ((c.width - 2 : ℕ) : ℤ) ≤ mantissaLog c fraction := by
      rw [mantissaLog_of_wf hwf]
      omega
    have hmono := magnitude_strictMono.monotone hle
    rw [magnitude_scale_mul, zpow_natCast] at hmono
    rw [Nat.le_floor_iff (magnitude_pos _).le]
    exact_mod_cast hmono
  obtain h | ⟨h, -⟩ := mantissaMagnitude_cases c s fraction <;> omega

/-! ## The decomposed operand -/

/-- The scaled fraction that stage 1 leaves of an operand. -/
def fractionOf (c : Config.Staged) (w : Word) : ℤ :=
  logField w - integerPartOf c.integerPart (logField w) * 2 ^ 23

theorem decompose_exponent (c : Config.Staged) (w : Word) :
    (decompose c w).exponent = integerPartOf c.integerPart (logField w) := rfl

theorem decompose_mantissa (c : Config.Staged) (w : Word) : (decompose c w).mantissa =
    if sign w then -(mantissaMagnitude c (sign w) (fractionOf c w) : ℤ)
    else mantissaMagnitude c (sign w) (fractionOf c w) := rfl

@[simp] theorem natAbs_decompose_mantissa (c : Config.Staged) (w : Word) :
    (decompose c w).mantissa.natAbs = mantissaMagnitude c (sign w) (fractionOf c w) := by
  rw [decompose_mantissa]
  split <;> simp

theorem natAbs_decompose_mantissa_lt (hwf : c.wf = true) (w : Word) :
    (decompose c w).mantissa.natAbs < 2 ^ (c.width - 1) := by
  rw [natAbs_decompose_mantissa]
  exact mantissaMagnitude_lt hwf _ (abs_lt.mp (fraction_bounds _ _).1).2

/-- Settles O49: the fraction is below 1, and its antilog is a mantissa below 1. -/
theorem decomposeIsNormalized : Obligations.DecomposeIsNormalized := by
  intro c w hwf
  obtain ⟨hsmall, hwhole, hnonneg⟩ := fraction_bounds c.integerPart (logField w)
  refine ⟨natAbs_decompose_mantissa_lt hwf w, fun h => ?negative, fun h => ?positive,
    fun h => ?normalized, fun h => ?floor, fun h => ?truncate⟩
  case negative =>
    by_contra hs
    rw [decompose_mantissa, if_neg hs] at h
    omega
  case positive =>
    by_contra hs
    rw [decompose_mantissa, if_pos (by simpa using hs)] at h
    omega
  case normalized =>
    rw [natAbs_decompose_mantissa]
    refine le_mantissaMagnitude hwf _ ?_
    obtain h | h | h := h
    · exact hnonneg (.inl h)
    · exact hnonneg (.inr h)
    · exact (hwhole h).ge
  case floor =>
    rw [decompose_exponent, h, integerPartOf_floor]
    omega
  case truncate =>
    rw [decompose_exponent]
    exact ⟨h ▸ abs_truncate_le _, hsmall⟩

/-- The mantissa's last place has the value that the exact antilog is scaled by (42_additive.md R106). -/
theorem magnitude_mantissaLog_mul (hwf : c.wf = true) (w : Word) :
    magnitude (mantissaLog c (fractionOf c w)) *
      ((2 : ℝ) ^ ((decompose c w).exponent + c.offset) / 2 ^ (c.width - 1)) = magnitude (logField w) := by
  obtain ⟨hwidth, hoffset⟩ := wf_iff.mp hwf
  have hlog : logField w = mantissaLog c (fractionOf c w) +
      2 ^ 23 * ((decompose c w).exponent + c.offset - (c.width - 1 : ℕ)) := by
    rw [mantissaLog_of_wf hwf, fractionOf, decompose_exponent, hoffset, Nat.cast_sub (by omega)]
    push_cast
    ring
  conv_rhs => rw [hlog]
  rw [magnitude_add, magnitude_scale_mul, zpow_sub₀ (by norm_num), zpow_natCast]

/-- Settles O50: the mantissa is within one unit in the last place of the exact antilog. -/
theorem decomposeReconstructsOperand : Obligations.DecomposeReconstructsOperand := by
  intro c w hwf
  dsimp only
  obtain ⟨hwidth, -⟩ := wf_iff.mp hwf
  obtain ⟨herror, hexact⟩ := mantissaMagnitude_error c (sign w) (fractionOf c w)
  have hunit := magnitude_mantissaLog_mul hwf w
  have hpos : (0 : ℝ) < 2 ^ ((decompose c w).exponent + c.offset) / 2 ^ (c.width - 1) := by positivity
  have hmantissa : ((decompose c w).mantissa : ℝ) =
      (if sign w then -1 else 1) * (mantissaMagnitude c (sign w) (fractionOf c w) : ℝ) := by
    rw [decompose_mantissa]
    cases sign w <;> simp
  generalize (2 : ℝ) ^ ((decompose c w).exponent + c.offset) / 2 ^ (c.width - 1) = unit at *
  have hsign : |(if sign w then -1 else 1 : ℝ)| = 1 := by cases sign w <;> simp
  rw [hmantissa, signedMagnitude, ← hunit, mul_assoc]
  constructor
  · rw [← mul_sub, ← sub_mul, abs_mul, abs_mul, hsign, one_mul, abs_of_pos hpos]
    exact mul_lt_of_lt_one_left hpos herror
  · intro hwhole
    have hfraction : fractionOf c w = 0 := (fraction_bounds _ _).2.1 hwhole
    have hlog : mantissaLog c (fractionOf c w) = ((c.width : ℤ) - 2) * 2 ^ 23 := by
      rw [mantissaLog_of_wf hwf, hfraction, zero_add]
    rw [hexact (by rw [hlog]; omega) (by rw [hlog, scale_int]; exact Int.mul_emod_left _ _)]

end Sys2Proof.Proofs.Decompose
end

section
/-!
PROOFS. Stages 2 to 5 of the staged adder: align, sum, renormalize and re-encode (42_additive.md R107 to
R110).
-/

namespace Sys2Proof.Proofs.StagedStages

open Machine RootOfTwo NearestMagnitude Refinement

variable {c : Config.Staged} {w : ℕ}

/-! ## Stages 2 and 3 -/

theorem shiftMantissa_of_le {n : ℕ} (m : ℤ) (h : w ≤ n) : shiftMantissa w m n = 0 := if_pos h

theorem shiftMantissa_of_lt {n : ℕ} (m : ℤ) (h : n < w) : shiftMantissa w m n = m / 2 ^ n := by
  rw [shiftMantissa, if_neg (not_le.mpr h), Int.shiftRight_eq_div_pow]
  norm_cast

theorem shiftMantissa_zero (hw : 0 < w) (m : ℤ) : shiftMantissa w m 0 = m := by
  rw [shiftMantissa_of_lt m hw, pow_zero, Int.ediv_one]

theorem align_of_le {x z : ExpMant} (h : z.exponent ≤ x.exponent) : align w x z =
    ⟨x.exponent, x.mantissa, shiftMantissa w z.mantissa (x.exponent - z.exponent).toNat⟩ :=
  if_pos (sub_nonneg.mpr h)

/-- With the larger exponent on the right the left mantissa is shifted; equal exponents shift neither. -/
theorem align_of_ge (hw : 0 < w) {x z : ExpMant} (h : z.exponent ≤ x.exponent) : align w z x =
    ⟨x.exponent, shiftMantissa w z.mantissa (x.exponent - z.exponent).toNat, x.mantissa⟩ := by
  rcases h.lt_or_eq with hlt | heq
  · have hdelta : ¬z.exponent - x.exponent ≥ 0 := by omega
    rw [align, if_neg hdelta, neg_sub]
  · rw [align_of_le heq.ge, heq, sub_self, Int.toNat_zero, shiftMantissa_zero hw, shiftMantissa_zero hw]

theorem align_exponent (w : ℕ) (x z : ExpMant) :
    (align w x z).exponent = max x.exponent z.exponent := by
  unfold align
  dsimp only
  split
  · dsimp only
    omega
  · dsimp only
    omega

/-- Both aligned mantissas are no larger than the mantissas (42_additive.md R107). -/
theorem natAbs_align_le (w : ℕ) (x z : ExpMant) :
    (align w x z).left.natAbs ≤ x.mantissa.natAbs ∧ (align w x z).right.natAbs ≤ z.mantissa.natAbs := by
  unfold align
  dsimp only
  split
  · exact ⟨le_rfl, natAbs_shiftMantissa_le w z.mantissa _⟩
  · exact ⟨natAbs_shiftMantissa_le w x.mantissa _, le_rfl⟩

theorem natAbs_sumAligned_le (hw : 0 < w) {x z : ExpMant} (hx : x.mantissa.natAbs < 2 ^ (w - 1))
    (hz : z.mantissa.natAbs < 2 ^ (w - 1)) :
    (sumAligned (align w x z)).mantissa.natAbs ≤ 2 ^ w - 2 := by
  obtain ⟨hleft, hright⟩ := natAbs_align_le w x z
  have hadd := Int.natAbs_add_le (align w x z).left (align w x z).right
  have hpow : 2 ^ w = 2 * 2 ^ (w - 1) := by rw [← pow_succ', Nat.sub_add_cancel hw]
  simp only [sumAligned]
  omega

theorem sumAligned_comm (hw : 0 < w) (x z : ExpMant) :
    sumAligned (align w x z) = sumAligned (align w z x) := by
  rcases le_total z.exponent x.exponent with h | h
  · rw [align_of_le h, align_of_ge hw h, sumAligned, sumAligned, add_comm]
  · rw [align_of_le h, align_of_ge hw h, sumAligned, sumAligned, add_comm]

/-- Settles O51: alignment shifts the mantissa of the smaller exponent, whichever side it is on. -/
theorem alignShiftsFloorAndVanish : Obligations.AlignShiftsFloorAndVanish := by
  refine ⟨fun w m n => ⟨shiftMantissa_of_le m, fun h => ?floor⟩,
    fun w x z hw h => ⟨align_of_le h, align_of_ge hw h⟩, fun v => ⟨rfl, rfl⟩,
    fun w x z hw => natAbs_sumAligned_le hw, fun w x z hw => sumAligned_comm hw x z, align_exponent⟩
  rw [shiftMantissa_of_lt m h]
  exact ⟨Int.ediv_mul_le m (by positivity), Int.lt_ediv_add_one_mul_self m (by positivity)⟩

/-! ## Stage 4 -/

section Renormalize

variable {opposite : Bool} {v : ExpMant}

/-- A sum of 1 or more is halved, the dropped bit lost (42_additive.md R109; log 8). -/
theorem renormalize_of_overflow (h : 2 ^ (w - 1) ≤ v.mantissa.natAbs) :
    renormalize w opposite v = ⟨v.exponent + 1, v.mantissa / 2⟩ := by
  rw [renormalize, mantissaOne, if_pos h, Int.shiftRight_eq_div_pow]
  rfl

/-- A sum below 1 is shifted left, by no place unless opposite signs brought it below 1/2. -/
theorem renormalize_of_lt (h : v.mantissa.natAbs < 2 ^ (w - 1)) : ∃ k : ℕ,
    renormalize w opposite v = ⟨v.exponent - k, v.mantissa * 2 ^ k⟩ ∧
      v.mantissa.natAbs * 2 ^ k < 2 ^ (w - 1) ∧
      (v.mantissa ≠ 0 → (opposite = false → 2 ^ (w - 2) ≤ v.mantissa.natAbs) →
        2 ^ (w - 2) ≤ v.mantissa.natAbs * 2 ^ k) := by
  rw [renormalize, mantissaOne, mantissaHalf, if_neg (not_le.mpr h)]
  split
  case isTrue hcond =>
    simp only [Bool.and_eq_true, decide_eq_true_eq, bne_iff_ne] at hcond
    obtain ⟨⟨-, hhalf⟩, hne⟩ := hcond
    have hne' : v.mantissa.natAbs ≠ 0 := Int.natAbs_ne_zero.mpr hne
    have hlog : v.mantissa.natAbs.log2 < w - 2 := (Nat.log2_lt hne').mpr hhalf
    have hlo := Nat.log2_self_le hne'
    have hhi := Nat.lt_log2_self (n := v.mantissa.natAbs)
    refine ⟨w - 2 - v.mantissa.natAbs.log2, rfl, ?_, fun _ _ => ?_⟩
    · calc v.mantissa.natAbs * 2 ^ (w - 2 - v.mantissa.natAbs.log2)
          < 2 ^ (v.mantissa.natAbs.log2 + 1) * 2 ^ (w - 2 - v.mantissa.natAbs.log2) := by gcongr
        _ = 2 ^ (w - 1) := by
            rw [← pow_add]
            congr 1
            omega
    · calc 2 ^ (w - 2) = 2 ^ v.mantissa.natAbs.log2 * 2 ^ (w - 2 - v.mantissa.natAbs.log2) := by
            rw [← pow_add]
            congr 1
            omega
        _ ≤ v.mantissa.natAbs * 2 ^ (w - 2 - v.mantissa.natAbs.log2) := by gcongr
  case isFalse hcond =>
    refine ⟨0, by simp, by simpa using h, fun hne hsame => ?_⟩
    rw [pow_zero, mul_one]
    cases opposite with
    | false => exact hsame rfl
    | true => simpa [hne] using hcond

/-- Settles O52: a sum of 1 or more is halved, a smaller one shifted to its leading bit. -/
theorem renormalizeRestoresRange : Obligations.RenormalizeRestoresRange := by
  intro w opposite v hw hne hmax hsame
  obtain ⟨q, hq⟩ : ∃ q, q = 2 ^ (w - 2) := ⟨_, rfl⟩
  have hone : 2 ^ (w - 1) = 2 * q := by rw [hq, ← pow_succ']; congr 1; omega
  have htwo : 2 ^ w = 4 * q := by rw [hq, ← Nat.pow_add 2 2]; congr 1; omega
  rw [htwo] at hmax
  rcases lt_or_ge v.mantissa.natAbs (2 ^ (w - 1)) with hlt | hge
  · obtain ⟨k, hrenorm, hhi, hlo⟩ := renormalize_of_lt (opposite := opposite) hlt
    have hk : (0 : ℤ) < 2 ^ k := by positivity
    have hnat : (v.mantissa * 2 ^ k).natAbs = v.mantissa.natAbs * 2 ^ k := by
      rw [Int.natAbs_mul, Int.natAbs_pow]
      rfl
    rw [hrenorm]
    refine ⟨hnat ▸ hlo hne hsame, hnat ▸ hhi, ?_, fun _ => ⟨k, rfl, rfl⟩, fun h => absurd hlt (by omega)⟩
    exact ⟨fun h => neg_of_mul_neg_left h hk.le, fun h => mul_neg_of_neg_of_pos h hk⟩
  · rw [renormalize_of_overflow hge, ← hq, hone]
    rw [hone] at hge
    dsimp only
    refine ⟨by omega, by omega, by omega, fun h => by omega, fun _ => ⟨rfl, by omega⟩⟩

/-- Renormalizing never clears a mantissa, and keeps it within the width (42_additive.md R109). -/
theorem renormalize_mantissa_bounds (hw : 2 ≤ w) (hne : v.mantissa ≠ 0)
    (hmax : v.mantissa.natAbs ≤ 2 ^ w - 2) : (renormalize w opposite v).mantissa ≠ 0 ∧
      (renormalize w opposite v).mantissa.natAbs < 2 ^ w := by
  have hpow : 2 ^ w = 2 * 2 ^ (w - 1) := by rw [← pow_succ', Nat.sub_add_cancel (by omega)]
  rcases lt_or_ge v.mantissa.natAbs (2 ^ (w - 1)) with hlt | hge
  · obtain ⟨k, hrenorm, hhi, -⟩ := renormalize_of_lt (opposite := opposite) hlt
    have hnat : (v.mantissa * 2 ^ k).natAbs = v.mantissa.natAbs * 2 ^ k := by
      rw [Int.natAbs_mul, Int.natAbs_pow]
      rfl
    rw [hrenorm]
    exact ⟨mul_ne_zero hne (by positivity), by dsimp only; omega⟩
  · have hhalf : 2 ≤ 2 ^ (w - 1) := le_self_pow₀ (by norm_num) (by omega)
    rw [renormalize_of_overflow hge]
    dsimp only
    omega

end Renormalize

/-! ## Stage 5 -/

/-- The exact value of a pair is a whole number of units, and a unit is a power of two. -/
theorem pair_value_eq (c : Config.Staged) (v : ExpMant) :
    (v.mantissa.natAbs : ℝ) / 2 ^ (c.width - 1) * (2 : ℝ) ^ (v.exponent + c.offset) =
      magnitude (2 ^ 23 * (v.exponent + c.offset - (c.width - 1 : ℕ))) * v.mantissa.natAbs := by
  rw [magnitude_scale_mul, zpow_sub₀ (by norm_num), zpow_natCast]
  ring

/-- Settles O53: stage 5 answers between the midpoints around its mantissa, and a power of two scales
both. -/
theorem reencodeIsNearestMagnitude : Obligations.ReencodeIsNearestMagnitude := by
  intro c v r k _ hr
  dsimp only
  rw [reencode] at hr
  obtain ⟨t, ht, rfl⟩ := Option.map_eq_some_iff.mp hr
  obtain ⟨hpowLo, hpowHi⟩ :=
    nearestWithin_spec (fun p => encloses_natCast p v.mantissa.natAbs) (Nat.cast_nonneg _) ht
  obtain ⟨hlo, hhi⟩ := midpointAbove_bounds_of_pow_bounds (Nat.cast_nonneg _) hpowLo hpowHi
  have hunit := magnitude_pos (2 ^ 23 * (v.exponent + c.offset - (c.width - 1 : ℕ)))
  have hr' : t + (v.exponent + c.offset - (c.width - 1 : ℕ)) * Config.scale =
      2 ^ 23 * (v.exponent + c.offset - (c.width - 1 : ℕ)) + t := by
    rw [scale_int]
    ring
  rw [pair_value_eq, hr']
  generalize 2 ^ 23 * (v.exponent + c.offset - (c.width - 1 : ℕ)) = u at *
  apply abs_sub_magnitude_le
  · rw [add_sub_assoc, ← magnitude_mul_midpointAbove]
    gcongr
  · rw [← magnitude_mul_midpointAbove]
    gcongr

end Sys2Proof.Proofs.StagedStages
end

section
/-!
PROOFS. The staged adder as a whole, and the `ADD_CORE` of every design (42_additive.md R101 to R110).
-/

namespace Sys2Proof.Proofs.StagedAdder

open Machine Addition ReferenceAdder Refinement Decompose StagedStages

variable {c : Config.Staged} {a b : Word}

/-! ## The constrained core -/

theorem isRequiredPair_iff : isRequiredPair a b = true ↔
    a = requiredA ∧ b = requiredB ∨ a = requiredB ∧ b = requiredA := by
  simp only [isRequiredPair, Bool.or_eq_true, Bool.and_eq_true, beq_iff_eq]

/-- Off the pair of R105 the constraints leave the exponent alone (42_additive.md R103, R104). -/
theorem constrainedCore_of_not_required (r : Word → Word → ℤ) (h₁ : ¬(a = requiredA ∧ b = requiredB))
    (h₂ : ¬(a = requiredB ∧ b = requiredA)) :
    constrainedCore r a b = mkWord (sign (dominant a b)) (wrap31 (r a b)) :=
  if_neg (mt isRequiredPair_iff.mp (not_or.mpr ⟨h₁, h₂⟩))

/-- The pair of R105 gives ZERO in either order. -/
theorem constrainedCore_required (r : Word → Word → ℤ) :
    constrainedCore r requiredA requiredB = ZERO ∧ constrainedCore r requiredB requiredA = ZERO :=
  ⟨if_pos (isRequiredPair_iff.mpr (.inl ⟨rfl, rfl⟩)), if_pos (isRequiredPair_iff.mpr (.inr ⟨rfl, rfl⟩))⟩

/-! ## The five stages -/

theorem stagedSum_comm (hwf : c.wf = true) (a b : Word) : stagedSum c a b = stagedSum c b a := by
  obtain ⟨hwidth, -⟩ := wf_iff.mp hwf
  exact sumAligned_comm (by omega) _ _

theorem natAbs_stagedSum_le (hwf : c.wf = true) (a b : Word) :
    (stagedSum c a b).mantissa.natAbs ≤ 2 ^ c.width - 2 := by
  obtain ⟨hwidth, -⟩ := wf_iff.mp hwf
  exact natAbs_sumAligned_le (by omega) (natAbs_decompose_mantissa_lt hwf a)
    (natAbs_decompose_mantissa_lt hwf b)

/-- Where stage 5 answers, its answer is the exponent. The definition is opened as a function, without its
operands: the kernel would otherwise evaluate stage 5. -/
theorem stagedExponent_of_some {r : ℤ} (hne : (stagedSum c a b).mantissa ≠ 0)
    (hr : reencode c (renormalize c.width (!sameSign a b) (stagedSum c a b)) = some r) :
    stagedExponent c a b = r := by
  have hdef : stagedExponent = stagedExponent := rfl
  conv at hdef => rhs; delta stagedExponent
  rw [hdef]
  simp only [hr, if_neg hne]

/-- No stage depends on the order of the operands (42_additive.md R102). -/
theorem stagedExponent_comm (hwf : c.wf = true) (h : inAddDomain a b = true) :
    stagedExponent c a b = stagedExponent c b a := by
  obtain ⟨hdom, hmin⟩ := dominant_comm h
  have hdef : stagedExponent = stagedExponent := rfl
  conv at hdef => rhs; delta stagedExponent
  rw [hdef]
  simp only [stagedSum_comm hwf a b, sameSign_comm a b, hdom, hmin]

/-- Stage 5 answers whenever the aligned sum is not 0 (42_additive.md R110). -/
theorem exists_reencode_stagedSum (hwf : c.wf = true) (hne : (stagedSum c a b).mantissa ≠ 0) :
    ∃ r, reencode c (renormalize c.width (!sameSign a b) (stagedSum c a b)) = some r := by
  obtain ⟨hwidth, -⟩ := wf_iff.mp hwf
  obtain ⟨hne', hlt⟩ := renormalize_mantissa_bounds (opposite := !sameSign a b) hwidth hne
    (natAbs_stagedSum_le hwf a b)
  exact Option.isSome_iff_exists.mp (reencodeAlwaysDecides c _ hne' hlt)

theorem stagedCore_of_reencode {r : ℤ} (h₁ : ¬(a = requiredA ∧ b = requiredB))
    (h₂ : ¬(a = requiredB ∧ b = requiredA)) (hne : (stagedSum c a b).mantissa ≠ 0)
    (hr : reencode c (renormalize c.width (!sameSign a b) (stagedSum c a b)) = some r) :
    stagedCore c a b = mkWord (sign (dominant a b)) (wrap31 r) := by
  rw [stagedCore, constrainedCore_of_not_required _ h₁ h₂, stagedExponent_of_some hne hr]

/-- Settles O55: the core is its stages by definition, and stage 5 decides what stage 4 hands it. -/
theorem stagedCoreComposesStages : Obligations.StagedCoreComposesStages := by
  intro c a b hwf
  obtain ⟨hrequired, hswapped⟩ := constrainedCore_required (stagedExponent c)
  refine ⟨rfl, hrequired, hswapped, fun _ h₁ h₂ => ⟨rfl, fun hne => ?_⟩⟩
  obtain ⟨r, hr⟩ := exists_reencode_stagedSum hwf hne
  exact ⟨r, hr, stagedCore_of_reencode h₁ h₂ hne hr⟩

/-- Settles O56: the exponent of the staged result is stage 5's, which is the nearest. -/
theorem decidedStagedSumsAreNearestMagnitudes : Obligations.DecidedStagedSumsAreNearestMagnitudes := by
  intro c a b r hwf _ h₁ h₂ hne hr
  have hopposite : decide (sign a ≠ sign b) = !sameSign a b := by
    rw [Bool.eq_iff_iff, decide_eq_true_iff, Bool.not_eq_true', ← Bool.not_eq_true, sameSign_iff]
  obtain ⟨hwidth, -⟩ := wf_iff.mp hwf
  obtain ⟨hne', -⟩ := renormalize_mantissa_bounds (opposite := !sameSign a b) hwidth hne
    (natAbs_stagedSum_le hwf a b)
  rw [hopposite]
  exact ⟨stagedCore_of_reencode h₁ h₂ hne hr, fun k => reencodeIsNearestMagnitude c _ r k hne' hr⟩

/-! ## The core of every design -/

theorem referenceCore_conforms : Conforms referenceCore where
  comm _ _ := referenceCore_comm
  sign_dominant _ _ _ := sign_mkWord _ _
  vector := by decide +kernel

theorem freeCore_conforms : Conforms freeCore :=
  constrainedCore_conforms fun _ _ h => by rw [(dominant_comm h).1, (dominant_comm h).2]

theorem stagedCore_conforms (hwf : c.wf = true) : Conforms (stagedCore c) :=
  constrainedCore_conforms fun _ _ => stagedExponent_comm hwf

theorem addCore_conforms {d : Config.Design} (hwf : d.wf = true) : Conforms (addCore d.addCore) := by
  obtain ⟨outReg, core⟩ := d
  cases core with
  | reference => exact referenceCore_conforms
  | free => exact freeCore_conforms
  | staged c => exact stagedCore_conforms hwf

/-- Settles O41: each kind of core conforms, and ADD only adds its overrides. -/
theorem everyDesignCoreConforms : Obligations.EveryDesignCoreConforms := by
  intro d hwf
  have hconf := addCore_conforms hwf
  refine ⟨hconf, addWord_comm _ hconf.comm, fun a b => addWord_of_inAddDomain _, ?_⟩
  exact (addWord_of_inAddDomain _ (by decide)).trans hconf.vector

end Sys2Proof.Proofs.StagedAdder
end

section
/-!
PROOFS. NAR absorbs in every arithmetic operation: it is the first override of each decision list
(60_exceptions.md R142, R144).
-/

namespace Sys2Proof.Proofs.NarAbsorption

open Machine MulDivSqrt MulDivSqrtLaws Negation Addition

@[simp] theorem divWord_nar_right (a : Word) : divWord a NAR = NAR := by simp [divWord_eq_ite]

@[simp] theorem sqrtWord_nar : sqrtWord NAR = NAR := sqrtWord_of_sign (by decide)

section Sub

variable (core : Word → Word → Word)

@[simp] theorem subWord_nar_left (b : Word) : subWord core NAR b = NAR :=
  addWord_nar_left core (negWord b)

/-- NEG leaves NAR unchanged, so SUB hands it to ADD (42_additive.md R116, R117). -/
@[simp] theorem subWord_nar_right (a : Word) : subWord core a NAR = NAR := by
  rw [subWord, negWord_nar, addWord_nar_right]

end Sub

/-- Settles O37: each operation's own absorption lemma, in the order of R142. -/
theorem narAbsorbs : Obligations.NarAbsorbs := fun core x =>
  ⟨mulWord_nar_right x, mulWord_nar_left x, divWord_nar_right x, divWord_nar_left x,
    addWord_nar_right core x, addWord_nar_left core x, subWord_nar_right core x,
    subWord_nar_left core x, sqrtWord_nar, negWord_nar⟩

end Sys2Proof.Proofs.NarAbsorption
end

section
/-!
PROOFS. Where the timing contract begins and where it ends: the reset state has the invariant, and a broken
window touches the registers alone (70_reset_and_hazards.md R163, R164).
-/

namespace Sys2Proof.Proofs.ResetAndHazards

open Machine Stepping Invariant

theorem default_wf : Config.Design.default.wf = true := rfl

/-- What a broken window may change: the registers, the bit that says they hold a value, and the index of
free values (93_implementation_defined.md I13; log 4). -/
theorem captureUnknown_frame (s : State) : captureUnknown s =
    { s with
      yQ := (captureUnknown s).yQ
      eqQ := (captureUnknown s).eqQ
      qDefined := true
      freeIndex := (captureUnknown s).freeIndex } := rfl

/-- Settles O9: the reset state of every well-formed design has the invariant, and the default design is
one. -/
theorem resetHasInvariant : Obligations.ResetHasInvariant := inv_reset_of_wf default_wf

/-- Settles O19: the step takes the free value, and `captureUnknown_frame` is what that leaves alone. -/
theorem brokenWindowChangesOnlyRegisters : Obligations.BrokenWindowChangesOnlyRegisters :=
  fun s hr hc hw =>
    ⟨captureUnknown s, step_of_brokenWindow hr hc hw, captureUnknown_qDefined s,
      captureUnknown_frame s⟩

end Sys2Proof.Proofs.ResetAndHazards
end
